-- ==== Sys2Proof/Word.lean ====
section
/-! DEFINITION. The word types of the BCU (spec 00_scope R6, R10, R14; 10_state R22, R23, R25, R28). -/

namespace Sys2Proof

/-- One byte of the byte buffer (R28). -/
abbrev Byte := BitVec 8

/-- One 32-bit word of the host port (R14, R52); a command word is one of these (R70). -/
abbrev BusWord := BitVec 32

/-- One 64-bit cell: an engine word of a scalar register (R23) or a digit slot (R25, R27). -/
abbrev Cell64 := BitVec 64

/-- The content of an integer register: `INT_BITS = 512` bits, unsigned (R10, R22). -/
abbrev Int512 := BitVec 512

/-- The content of a scalar register: `ENGINE_WORDS = 4` engine words `E[0..3]` (R23). -/
abbrev ScalarReg := Vector Cell64 4

/-- The content of a field register: `NDIG = 12` digit slots `d[0..11]` (R25). -/
abbrev FieldReg := Vector Cell64 12

/-- The content of a quadratic register: `NSLOT = 24` digit slots `s[0..23]` (R27). -/
abbrev QuadReg := Vector Cell64 24

/-- A digit vector `D[0..11]`: a list of 12 integers (R17). -/
abbrev DigitVec := Vector Int 12

end Sys2Proof
end

