-- ==== Sys2Proof/Syntax.lean ====
section
/-! DEFINITION. The commands as syntax: one constructor per row of spec/opcode_table.json (spec 30_encoding R74). -/

namespace Sys2Proof

/-- An integer register name `I0..I3` (R22, R73). -/
abbrev IReg := Fin 4

/-- A scalar register name `S0..S1` (R23, R73). -/
abbrev SReg := Fin 2

/-- A field register name `F0..F3` (R25, R73). -/
abbrev FReg := Fin 4

/-- A quadratic register name `Q0..Q5` (R27, R73). -/
abbrev QReg := Fin 6

/-- An element index `K` into the byte buffer, `0..11` (R71). -/
abbrev Elem := Fin 12

/-- The seventeen commands, operands in the order of the assembler syntax (R81): destinations first. -/
inductive Instr where
  /-- `NOP` (R150). -/
  | nop
  /-- `SENC Sd, Is` (R90). -/
  | senc (d : SReg) (r : IReg)
  /-- `SDEC Id, Ss` (R92). -/
  | sdec (d : IReg) (r : SReg)
  /-- `FENC Fd, Is` (R102). -/
  | fenc (d : FReg) (r : IReg)
  /-- `FDEC Id, Fs` (R104). -/
  | fdec (d : IReg) (r : FReg)
  /-- `QILV Qd, Fa, Fb` (R111). -/
  | qilv (d : QReg) (a b : FReg)
  /-- `QDIL Fa, Fb, Qs` (R112). -/
  | qdil (a b : FReg) (r : QReg)
  /-- `QENC Qd, Ia, Ib` (R113). -/
  | qenc (d : QReg) (a b : IReg)
  /-- `QDEC Ia, Ib, Qs` (R114). -/
  | qdec (a b : IReg) (r : QReg)
  /-- `FTOB Fs, K` (R121). -/
  | ftob (r : FReg) (k : Elem)
  /-- `BTOF Fd, K` (R122). -/
  | btof (d : FReg) (k : Elem)
  /-- `MG1` (R132). -/
  | mg1
  /-- `UG1` (R133). -/
  | ug1
  /-- `MG2` (R134). -/
  | mg2
  /-- `UG2` (R135). -/
  | ug2
  /-- `MGT` (R136). -/
  | mgt
  /-- `UGT` (R137). -/
  | ugt
deriving DecidableEq, Repr

end Sys2Proof
end

