-- ==== Sys2Proof/WellFormed.lean ====
section
/-! DEFINITION. Which commands of the syntax are commands of the BCU (spec 30_encoding R73, R76): the ranges of R73 are
in the operand types, and what is left is that the two destinations of `QDIL` and `QDEC` differ. -/

namespace Sys2Proof

/-- No two destinations of the command are the same register (R76; R34). -/
def Instr.wellFormed : Instr → Bool
  | .qdil a b _ => a != b
  | .qdec a b _ => a != b
  | .nop | .senc _ _ | .sdec _ _ | .fenc _ _ | .fdec _ _ | .qilv _ _ _ | .qenc _ _ _ | .ftob _ _ | .btof _ _
  | .mg1 | .ug1 | .mg2 | .ug2 | .mgt | .ugt => true

end Sys2Proof
end

