-- ==== Sys2Proof/Decode.lean ====
section
/-! DEFINITION. Decoding and encoding of the command word, the opcode map as data, and the assembler text of a command
(spec 30_encoding R70 to R77, R81). -/

namespace Sys2Proof

/-- `bits[hi:lo]` of a command word, as the number `(x div 2^lo) mod 2^(hi-lo+1)` (R12). -/
def bits (c : BusWord) (hi lo : Nat) : Nat := c.toNat / 2 ^ lo % 2 ^ (hi - lo + 1)

/-- `OPC`, bits [31:24] (R71). -/
def fieldOpc (c : BusWord) : Nat := bits c 31 24

/-- `A`, bits [23:20] (R71). -/
def fieldA (c : BusWord) : Nat := bits c 23 20

/-- `B`, bits [19:16] (R71). -/
def fieldB (c : BusWord) : Nat := bits c 19 16

/-- `C`, bits [15:12] (R71). -/
def fieldC (c : BusWord) : Nat := bits c 15 12

/-- `Z`, bits [11:4], zero in every command (R71). -/
def fieldZ (c : BusWord) : Nat := bits c 11 4

/-- `K`, bits [3:0] (R71). -/
def fieldK (c : BusWord) : Nat := bits c 3 0

/-- Why a word is illegal: the conditions of R76, in its order. The machine does not keep the reason (R160). -/
inductive Illegal where
  | reservedOpcode
  | nonzeroZ
  | unusedField
  | indexRange
  | elementRange
  | sameDestination
deriving DecidableEq, Repr

/-- `Z` must be zero in every command (R71, R76). -/
def needZ (c : BusWord) : Except Illegal Unit :=
  if fieldZ c = 0 then .ok () else .error .nonzeroZ

/-- A field the format does not use must be zero (R72, R76). -/
def unused (f : Nat) : Except Illegal Unit :=
  if f = 0 then .ok () else .error .unusedField

/-- A register index of a file of `n` registers (R73, R76). -/
def index (n f : Nat) : Except Illegal (Fin n) :=
  if h : f < n then .ok ⟨f, h⟩ else .error .indexRange

/-- The element index `K`, `0..11` (R73, R76). -/
def element (f : Nat) : Except Illegal Elem :=
  if h : f < 12 then .ok ⟨f, h⟩ else .error .elementRange

/-- Format `Z0`: only `OPC` is used (R72). -/
def formatZ0 (c : BusWord) (i : Instr) : Except Illegal Instr := do
  needZ c
  unused (fieldA c)
  unused (fieldB c)
  unused (fieldC c)
  unused (fieldK c)
  return i

/-- Format `D1S1`: `A` destination, `B` source (R72). -/
def formatD1S1 (c : BusWord) (nA nB : Nat) (mk : Fin nA → Fin nB → Instr) : Except Illegal Instr := do
  needZ c
  unused (fieldC c)
  unused (fieldK c)
  let a ← index nA (fieldA c)
  let b ← index nB (fieldB c)
  return mk a b

/-- Format `D1S2`: `A` destination, `B` first source, `C` second source (R72). -/
def formatD1S2 (c : BusWord) (nA nB nC : Nat) (mk : Fin nA → Fin nB → Fin nC → Instr) : Except Illegal Instr := do
  needZ c
  unused (fieldK c)
  let a ← index nA (fieldA c)
  let b ← index nB (fieldB c)
  let x ← index nC (fieldC c)
  return mk a b x

/-- Format `D2S1`: `A` first destination, `B` source, `C` second destination, the two destinations different registers
(R72, R76). The maker takes them as first destination, second destination, source (R81). -/
def formatD2S1 (c : BusWord) (nD nB : Nat) (mk : Fin nD → Fin nD → Fin nB → Instr) : Except Illegal Instr := do
  needZ c
  unused (fieldK c)
  let a ← index nD (fieldA c)
  let b ← index nB (fieldB c)
  let x ← index nD (fieldC c)
  if a = x then .error .sameDestination else return mk a x b

/-- Format `S1K`: `B` source, `K` (R72). -/
def formatS1K (c : BusWord) (nB : Nat) (mk : Fin nB → Elem → Instr) : Except Illegal Instr := do
  needZ c
  unused (fieldA c)
  unused (fieldC c)
  let b ← index nB (fieldB c)
  let k ← element (fieldK c)
  return mk b k

/-- Format `D1K`: `A` destination, `K` (R72). -/
def formatD1K (c : BusWord) (nA : Nat) (mk : Fin nA → Elem → Instr) : Except Illegal Instr := do
  needZ c
  unused (fieldB c)
  unused (fieldC c)
  let a ← index nA (fieldA c)
  let k ← element (fieldK c)
  return mk a k

/-- `decode(c)`: every 32-bit word is exactly one command or illegal (R74, R75, R76). -/
def decode (c : BusWord) : Except Illegal Instr :=
  match fieldOpc c with
  | 0x00 => formatZ0 c .nop
  | 0x10 => formatD1S1 c 2 4 .senc
  | 0x11 => formatD1S1 c 4 2 .sdec
  | 0x20 => formatD1S1 c 4 4 .fenc
  | 0x21 => formatD1S1 c 4 4 .fdec
  | 0x30 => formatD1S2 c 6 4 4 .qilv
  | 0x31 => formatD2S1 c 4 6 .qdil
  | 0x32 => formatD1S2 c 6 4 4 .qenc
  | 0x33 => formatD2S1 c 4 6 .qdec
  | 0x40 => formatS1K c 4 .ftob
  | 0x41 => formatD1K c 4 .btof
  | 0x50 => formatZ0 c .mg1
  | 0x51 => formatZ0 c .ug1
  | 0x52 => formatZ0 c .mg2
  | 0x53 => formatZ0 c .ug2
  | 0x54 => formatZ0 c .mgt
  | 0x55 => formatZ0 c .ugt
  | _ => .error .reservedOpcode

/-- A command word from its fields (R71), with `Z = 0`. -/
def pack (opc a b c k : Nat) : BusWord :=
  BitVec.ofNat 32 (opc * 2 ^ 24 + a * 2 ^ 20 + b * 2 ^ 16 + c * 2 ^ 12 + k)

/-- `OPC` of a command (R74). -/
def Instr.opcode : Instr → Nat
  | .nop => 0x00
  | .senc _ _ => 0x10
  | .sdec _ _ => 0x11
  | .fenc _ _ => 0x20
  | .fdec _ _ => 0x21
  | .qilv _ _ _ => 0x30
  | .qdil _ _ _ => 0x31
  | .qenc _ _ _ => 0x32
  | .qdec _ _ _ => 0x33
  | .ftob _ _ => 0x40
  | .btof _ _ => 0x41
  | .mg1 => 0x50
  | .ug1 => 0x51
  | .mg2 => 0x52
  | .ug2 => 0x53
  | .mgt => 0x54
  | .ugt => 0x55

/-- The word of a command (the Encoding part of each command's rule; R74, R81). -/
def encode (i : Instr) : BusWord :=
  match i with
  | .senc d r => pack i.opcode d r 0 0
  | .sdec d r => pack i.opcode d r 0 0
  | .fenc d r => pack i.opcode d r 0 0
  | .fdec d r => pack i.opcode d r 0 0
  | .qilv d a b => pack i.opcode d a b 0
  | .qdil a b r => pack i.opcode a r b 0
  | .qenc d a b => pack i.opcode d a b 0
  | .qdec a b r => pack i.opcode a r b 0
  | .ftob r k => pack i.opcode 0 r 0 k
  | .btof d k => pack i.opcode d 0 0 k
  | .nop | .mg1 | .ug1 | .mg2 | .ug2 | .mgt | .ugt => pack i.opcode 0 0 0 0

/-- What the host asks the decoder: the instruction read from a table word of `nbits` bits, bits above them zero. -/
def decodeTableWord (nbits w : Nat) : Option Instr :=
  match decode (BitVec.ofNat 32 (w % 2 ^ nbits)) with
  | .ok i => some i
  | .error _ => none

/-- A condition of the "further" column of R74. -/
inductive Further where
  | aAtMost (n : Nat)
  | bAtMost (n : Nat)
  | kAtMost (n : Nat)
  | aNotC
deriving DecidableEq, Repr

/-- Whether a word meets a further condition (R74). -/
def Further.holds (f : Further) (c : BusWord) : Bool :=
  match f with
  | .aAtMost n => decide (fieldA c ≤ n)
  | .bAtMost n => decide (fieldB c ≤ n)
  | .kAtMost n => decide (fieldK c ≤ n)
  | .aNotC => decide (fieldA c ≠ fieldC c)

/-- One row of the opcode map: what the word must equal under the mask, and the further conditions (R74). -/
structure OpcodeRow where
  mnemonic : String
  pattern : BusWord
  mask : BusWord
  further : List Further
deriving DecidableEq, Repr

/-- The opcode map of R74 (spec/opcode_table.json), row by row. The decoder does not read it; a statement compares. -/
def opcodeTable : List OpcodeRow :=
  [ ⟨"NOP", 0x00000000#32, 0xFFFFFFFF#32, []⟩,
    ⟨"SENC", 0x10000000#32, 0xFFECFFFF#32, []⟩,
    ⟨"SDEC", 0x11000000#32, 0xFFCEFFFF#32, []⟩,
    ⟨"FENC", 0x20000000#32, 0xFFCCFFFF#32, []⟩,
    ⟨"FDEC", 0x21000000#32, 0xFFCCFFFF#32, []⟩,
    ⟨"QILV", 0x30000000#32, 0xFF8CCFFF#32, [.aAtMost 5]⟩,
    ⟨"QDIL", 0x31000000#32, 0xFFC8CFFF#32, [.bAtMost 5, .aNotC]⟩,
    ⟨"QENC", 0x32000000#32, 0xFF8CCFFF#32, [.aAtMost 5]⟩,
    ⟨"QDEC", 0x33000000#32, 0xFFC8CFFF#32, [.bAtMost 5, .aNotC]⟩,
    ⟨"FTOB", 0x40000000#32, 0xFFFCFFF0#32, [.kAtMost 11]⟩,
    ⟨"BTOF", 0x41000000#32, 0xFFCFFFF0#32, [.kAtMost 11]⟩,
    ⟨"MG1", 0x50000000#32, 0xFFFFFFFF#32, []⟩,
    ⟨"UG1", 0x51000000#32, 0xFFFFFFFF#32, []⟩,
    ⟨"MG2", 0x52000000#32, 0xFFFFFFFF#32, []⟩,
    ⟨"UG2", 0x53000000#32, 0xFFFFFFFF#32, []⟩,
    ⟨"MGT", 0x54000000#32, 0xFFFFFFFF#32, []⟩,
    ⟨"UGT", 0x55000000#32, 0xFFFFFFFF#32, []⟩ ]

/-- A word is the command of a row when it meets the row's match, mask and further conditions (R74). -/
def OpcodeRow.meets (r : OpcodeRow) (c : BusWord) : Bool :=
  decide (c &&& r.mask = r.pattern) && r.further.all (fun f => f.holds c)

/-- The mnemonic of a command (R74). -/
def Instr.mnemonic : Instr → String
  | .nop => "NOP"
  | .senc _ _ => "SENC"
  | .sdec _ _ => "SDEC"
  | .fenc _ _ => "FENC"
  | .fdec _ _ => "FDEC"
  | .qilv _ _ _ => "QILV"
  | .qdil _ _ _ => "QDIL"
  | .qenc _ _ _ => "QENC"
  | .qdec _ _ _ => "QDEC"
  | .ftob _ _ => "FTOB"
  | .btof _ _ => "BTOF"
  | .mg1 => "MG1"
  | .ug1 => "UG1"
  | .mg2 => "MG2"
  | .ug2 => "UG2"
  | .mgt => "MGT"
  | .ugt => "UGT"

/-- A register written `I0..I3`, `S0..S1`, `F0..F3`, `Q0..Q5` (R81). -/
def regText (file : String) (n : Nat) : String := file ++ toString n

/-- The operands of a command as the assembler writes them: destinations first, `K` in decimal (R81). -/
def Instr.operands : Instr → List String
  | .senc d r => [regText "S" d, regText "I" r]
  | .sdec d r => [regText "I" d, regText "S" r]
  | .fenc d r => [regText "F" d, regText "I" r]
  | .fdec d r => [regText "I" d, regText "F" r]
  | .qilv d a b => [regText "Q" d, regText "F" a, regText "F" b]
  | .qdil a b r => [regText "F" a, regText "F" b, regText "Q" r]
  | .qenc d a b => [regText "Q" d, regText "I" a, regText "I" b]
  | .qdec a b r => [regText "I" a, regText "I" b, regText "Q" r]
  | .ftob r k => [regText "F" r, toString k.val]
  | .btof d k => [regText "F" d, toString k.val]
  | .nop | .mg1 | .ug1 | .mg2 | .ug2 | .mgt | .ugt => []

/-- The assembler line of a command: its mnemonic followed by its operands (R81; the spacing is log 16). -/
def Instr.text (i : Instr) : String :=
  match i.operands with
  | [] => i.mnemonic
  | os => i.mnemonic ++ " " ++ ", ".intercalate os

end Sys2Proof
end

