-- ==== Sys2Proof/Config.lean ====
section
/-! DEFINITION. What is fixed before reset is released (spec 00_scope R5 to R10, 10_state R21), the named defaults of
the open parameters, and the free values drawn by the reset input (10_state R38). -/

namespace Sys2Proof

/-- `DIGIT_MAX = 2^53`, the largest magnitude a digit may have (R7). PRESUMED: the spec takes the number from general
knowledge (log 8); safe where a statement is read with this bound. -/
def digitMax : Nat := 2 ^ 53

/-- `ELEM_BYTES = 32`, bytes of one base-field element on the wire (R8). -/
def elemBytes : Nat := 32

/-- `BUF_BYTES = 384`, size of the byte buffer (R10). -/
def bufBytes : Nat := 384

/-- `NDIG = 12`, digits of a base-field element (R8). -/
def nDig : Nat := 12

/-- `WORD_BITS`: the target's native word size is 64 or 32 (R6). -/
inductive WordBits where
  | w64
  | w32
deriving DecidableEq, Repr

/-- The number `WORD_BITS` (R6). -/
def WordBits.bits : WordBits → Nat
  | .w64 => 64
  | .w32 => 32

/-- `W = 256 / WORD_BITS`, the number of native words of a scalar (R6). -/
def WordBits.words (w : WordBits) : Nat := 256 / w.bits

/-- The configuration constants (R21) with the constraints a parameter set must meet (R9; `V` and `ORDER` also fit the
constants window, R21). A set that breaks them is refused by the spec (U17): here it cannot be built (log 3). -/
structure Params where
  /-- `V`, the curve parameter. -/
  V : Nat
  /-- `P`, the base-field modulus. -/
  P : Nat
  /-- `ORDER`, the group order; no command reads it (R91). -/
  order : Nat
  /-- `WORD_BITS`; reported in `CFG` only (R6). -/
  wordBits : WordBits
  /-- R9(a). -/
  v_pos : 1 ≤ V
  /-- R9(b): `6*V - 1 <= DIGIT_MAX`. -/
  v_digit : 6 * V ≤ digitMax + 1
  /-- R9(c). -/
  p_digit : P ≤ (digitMax + 1) * 36 * V ^ 11
  /-- R9(d). -/
  p_bytes : P ≤ 2 ^ 256
  /-- R9(e). -/
  p_two : 2 ≤ P
  /-- R21. -/
  v_port : V < 2 ^ 64
  /-- R21. -/
  order_port : order < 2 ^ 256
deriving DecidableEq, Repr

/-- The default parameters of R5. PRESUMED: the values come from general knowledge, not from the source (log 1), and
`WORD_BITS = 64` is the default of the table of open parameters (log 2). Unsafe where a statement rests on them: one
does, the last clause of CanonicalDigitRanges, which is R106's own sentence about these defaults. -/
def Params.default : Params where
  V := 1868033
  P := 65000549695646603732796438742359905742825358107623003571877145026864184071783
  order := 65000549695646603732796438742359905742570406053903786389881062969044166799969
  wordBits := .w64
  v_pos := by decide
  v_digit := by decide
  p_digit := by decide
  p_bytes := by decide
  p_two := by decide
  v_port := by decide
  order_port := by decide

/-- The free content of integer register `i` after draw number `n` of the reset input (R38: "any 512-bit value"; log 5). -/
opaque Config.freeInt (n i : Nat) : Int512

/-- The free content of engine word `j` of scalar register `i` after draw number `n` (R38; log 5). -/
opaque Config.freeScalar (n i j : Nat) : Cell64

/-- The free content of digit slot `k` of field register `i` after draw number `n` (R38; log 5). -/
opaque Config.freeField (n i k : Nat) : Cell64

/-- The free content of slot `t` of quadratic register `i` after draw number `n` (R38; log 5). -/
opaque Config.freeQuad (n i t : Nat) : Cell64

/-- The free content of buffer byte `a` after draw number `n` (R38; log 5). -/
opaque Config.freeByte (n a : Nat) : Byte

end Sys2Proof
end

