-- ==== Sys2Proof/Machine/State.lean ====
section
/-! DEFINITION. The state of the BCU (spec 10_state R20), the host's requests, why the model stops, and the state right
after reset (10_state R38). -/

namespace Sys2Proof.Machine

/-- The byte buffer as data: pairs of byte number and byte, in the canonical form of `Memory.wf`. A byte number that is
not listed reads 0 (log 11). -/
abbrev Memory := List Host.Cell

/-- What the host asks of the BCU, one item per transaction (R14, R32, R180). `off` is a byte offset from the window's
base and `size` the access width in bytes; only aligned accesses of size 4 exist (R52). -/
inductive Request where
  /-- `MemRead(off, size)`. -/
  | read (off size : Nat)
  /-- `MemWrite(off, size, data)`. -/
  | write (off size : Nat) (data : BusWord)
  /-- The reset input asserted and released (R180; log 10). -/
  | reset
deriving DecidableEq, Repr

/-- The architectural state (R20), and the model's own three fields `port`, `replies` and `draws`. -/
structure State where
  /-- `V`, `P`, `ORDER`, `WORD_BITS` (R21). -/
  params : Params
  /-- `I0..I3` (R22). -/
  ints : Vector Int512 4
  /-- `S0..S1` (R23). -/
  scalars : Vector ScalarReg 2
  /-- `F0..F3` (R25). -/
  fields : Vector FieldReg 4
  /-- `Q0..Q5` (R27). -/
  quads : Vector QuadReg 6
  /-- `B[0..383]` (R28). -/
  buf : Memory
  /-- `BLEN` (R28). -/
  blen : BusWord
  /-- `STATUS` (R29). -/
  status : BusWord
  /-- The model's own: the host's transactions not yet served, in issue order (R32, R59; log 6). -/
  port : List Request
  /-- The model's own: the words host reads returned, oldest first (R57; log 7). -/
  replies : List BusWord
  /-- The model's own: draws of unspecified contents made by the reset input (R38; log 5). -/
  draws : Nat
deriving DecidableEq, Repr

/-- Why the machine stops with a fault. No command raises one: a command's ContractViolation is a next state (R80, log 12). -/
inductive Fault where
  /-- A host access at a byte offset outside the window `0x0000..0x1FFF` (R50, R52), raised by the port (log 9). Safe:
  the model says nothing about the address. -/
  | outsideWindow (off : Nat)
deriving DecidableEq, Repr

/-- Why the model gives no meaning. -/
inductive Refusal where
  /-- The command has no meaning yet; raised by a rejected arm of `exec`, of which there is none. Safe. -/
  | notModelled (mnemonic : String)
  /-- A misaligned access, or one that is not 32 bits wide: "a model refuses any such request as ill-formed" (R52),
  raised by the port (log 9). Safe. -/
  | illFormedAccess (off size : Nat)
deriving DecidableEq, Repr

/-- The machine right after reset (R38): `STATUS = 0`, `BLEN = 0`, the constants as configured (PRESUMED defaults of R5,
log 1 and 2). DESIGN CHOICE, unsafe: the data registers, whose contents R38 leaves unspecified, hold 0 (log 4). -/
def State.reset : State where
  params := .default
  ints := Vector.replicate 4 0
  scalars := Vector.replicate 2 (Vector.replicate 4 0)
  fields := Vector.replicate 4 (Vector.replicate 12 0)
  quads := Vector.replicate 6 (Vector.replicate 24 0)
  buf := []
  blen := 0
  status := 0
  port := []
  replies := []
  draws := 0

end Sys2Proof.Machine
end

