-- ==== Sys2Proof/Machine/Flags.lean ====
section
/-! DEFINITION. The fields of `STATUS` (spec 10_state R29, 60_exceptions R160). -/

namespace Sys2Proof.Machine

/-- The outcomes `STATUS.CODE` names (R29, R160). -/
inductive Code where
  | ok
  | lengthMismatch
  | encodingOverflow
  | illegalCommand
  | contractViolation
deriving DecidableEq, Repr

/-- The number of an outcome (R29, R160). -/
def Code.num : Code → BitVec 4
  | .ok => 0
  | .lengthMismatch => 1
  | .encodingOverflow => 2
  | .illegalCommand => 3
  | .contractViolation => 4

/-- `CODE`, bits [3:0] of `STATUS` (R29). -/
def statusCode (w : BusWord) : BitVec 4 := w.extractLsb' 0 4

/-- `FAULT`, bit [8] of `STATUS` (R29). -/
def statusFault (w : BusWord) : Bool := w.getLsbD 8

/-- `STATUS.CODE <- c`: bits [3:0] are written, the others stay (R29, R80). -/
def statusSetCode (w : BusWord) (c : Code) : BusWord := (w &&& 0xFFFFFFF0#32) ||| c.num.setWidth 32

/-- `STATUS.FAULT <- 1`: bit [8] is set, the others stay (R29, R80). -/
def statusSetFault (w : BusWord) : BusWord := w ||| 0x100#32

end Sys2Proof.Machine
end

