-- ==== Sys2Proof/Machine/Operands.lean ====
section
/-! DEFINITION. The pure functions of the codecs: digits, weights, `fenc`, `fdec`, `ilv`, `dil_a`, `dil_b`, `be32`,
`be_uint`, `sval`, and the bus words of wide registers (spec 10_state R23 to R26, 20_memory R53, R54,
41_base_field_codec R101, R103, 42_quadratic_extension_codec R110, 43_byte_serializer R120). Numbers are unbounded
(R108). -/

namespace Sys2Proof.Machine

/-- `weight(k)`: 1, then `6*V^k` for k = 1..6 and `36*V^k` for k = 7..11 (R25). -/
def weight (V k : Nat) : Nat :=
  if k = 0 then 1 else if k ≤ 6 then 6 * V ^ k else 36 * V ^ k

/-- The exact sum of digits times weights, the first digit at position `k` (R25, R103). -/
def weightedSum (V : Nat) : Nat → List Int → Int
  | _, [] => 0
  | k, d :: ds => d * weight V k + weightedSum V (k + 1) ds

/-- `fval(D)`: the weighted sum reduced to `[0, P)` (R25, R11, R108(c)). -/
def fval (p : Params) (D : DigitVec) : Nat :=
  (weightedSum p.V 0 D.toList % (p.P : Int)).toNat

/-- One digit has magnitude at most `DIGIT_MAX` (R7). -/
def digitInRange (d : Int) : Bool := decide (-(digitMax : Int) ≤ d ∧ d ≤ (digitMax : Int))

/-- `in_range(D)`: every digit is in range (R26). -/
def inRange (D : DigitVec) : Bool := D.toList.all digitInRange

/-- The divisors of the eleven division steps of `fenc`: `6V`, five times `V`, `6V`, four times `V` (R101). -/
def radices (V : Nat) : List Nat := [6 * V, V, V, V, V, V, 6 * V, V, V, V, V]

/-- Repeated division: each remainder in turn, and at the end the remaining quotient (R101). -/
def mixedRadix : List Nat → Nat → List Nat
  | [], t => [t]
  | r :: rs, t => (t % r) :: mixedRadix rs (t / r)

/-- Repeated division gives one digit more than there are divisors. -/
theorem mixedRadix_length (rs : List Nat) (t : Nat) : (mixedRadix rs t).length = rs.length + 1 := by
  induction rs generalizing t with
  | nil => rfl
  | cons r rs ih => simp [mixedRadix, ih]

/-- The digits `D[0..11]` of the division of R101, before the test of digit 11. -/
def fencDigits (V x : Nat) : DigitVec :=
  ⟨((mixedRadix (radices V) x).map Int.ofNat).toArray, by simp [mixedRadix_length, radices]⟩

/-- `fenc(x)`: the digit vector, or `none` for `unrepresentable`, when digit 11 exceeds `DIGIT_MAX` (R101, R107). -/
def fenc (p : Params) (x : Nat) : Option DigitVec :=
  if (fencDigits p.V x)[11] > (digitMax : Int) then none else some (fencDigits p.V x)

/-- `fdec(D)`: the integer in `[0, P)`, or `none` for `out_of_range` (R103). -/
def fdec (p : Params) (D : DigitVec) : Option Nat :=
  if inRange D then some (fval p D) else none

/-- The digits a field register holds: each slot read as two's complement (R12, R108(e)). -/
def readDigits (r : FieldReg) : DigitVec := r.map BitVec.toInt

/-- The field register that holds a digit vector: each digit stored as `tc64` (R12, R108(e)). -/
def storeDigits (D : DigitVec) : FieldReg := D.map (BitVec.ofInt 64)

/-- `fenc` into register form. -/
def fencReg (p : Params) (x : Nat) : Option FieldReg := (fenc p x).map storeDigits

/-- `fdec` of a register's digits. -/
def fdecReg (p : Params) (r : FieldReg) : Option Nat := fdec p (readDigits r)

/-- `ilv(A, Bv)`: `T[2k] = Bv[k]`, `T[2k+1] = A[k]` (R110). -/
def ilv {α : Type} (A Bv : Vector α 12) : Vector α 24 :=
  Vector.ofFn fun t => if t.val % 2 = 0 then Bv[t.val / 2] else A[t.val / 2]

/-- `dil_a(T)[k] = T[2k+1]` (R110). -/
def dilA {α : Type} (T : Vector α 24) : Vector α 12 := Vector.ofFn fun k => T[2 * k.val + 1]

/-- `dil_b(T)[k] = T[2k]` (R110). -/
def dilB {α : Type} (T : Vector α 24) : Vector α 12 := Vector.ofFn fun k => T[2 * k.val]

/-- `ilv(fenc(a), fenc(b))` in register form (R113, R135, R137). -/
def fencPair (p : Params) (a b : Nat) : Option QuadReg := do
  let Da ← fencReg p a
  let Db ← fencReg p b
  return ilv Da Db

/-- `fdec` of each register in turn; `none` when any of them is out of range (R132, R134, R136). -/
def fdecAll (p : Params) : List FieldReg → Option (List Nat)
  | [] => some []
  | r :: rs => do
    let x ← fdecReg p r
    let xs ← fdecAll p rs
    return x :: xs

/-- `one = fenc(1) = (1, 0, ..., 0)` in the base field (R139; the spec's decision D18, log 15). -/
def oneField : FieldReg := #v[1, 0, 0, 0, 0, 0, 0, 0, 0, 0, 0, 0]

/-- `zero = fenc(0) = (0, ..., 0)` in the base field (R139). -/
def zeroField : FieldReg := Vector.replicate 12 0

/-- `one = ilv(fenc(1), fenc(0))` in the quadratic extension: slot 1 is 1 (R135, R139). -/
def oneQuad : QuadReg := ilv oneField zeroField

/-- `zero = ilv(fenc(0), fenc(0))` in the quadratic extension (R135, R139). -/
def zeroQuad : QuadReg := ilv zeroField zeroField

/-- `be32(x)`: `b[n] = bits[8*(31-n)+7 : 8*(31-n)]` of x, byte 0 the most significant (R120, R56). -/
def be32 (x : Nat) : List Byte :=
  (List.range 32).map fun n => BitVec.ofNat 8 (x / 2 ^ (8 * (31 - n)))

/-- `be_uint(bs)`: the byte string read as a big-endian unsigned integer (R120). -/
def beUint (bs : List Byte) : Nat := bs.foldl (fun acc b => acc * 256 + b.toNat) 0

/-- `sval(S)`: the sum of `E[j] * 2^(64*j)` (R23). -/
def sval (r : ScalarReg) : Nat :=
  r[0].toNat + r[1].toNat * 2 ^ 64 + r[2].toNat * 2 ^ 128 + r[3].toNat * 2 ^ 192

/-- `E[j] = bits[64j+63:64j]` of k (R90). -/
def scalarWords (k : Int512) : ScalarReg := Vector.ofFn fun j => k.extractLsb' (64 * j.val) 64

/-- The limb view of a scalar register (R24): with 64-bit words `w[j] = E[j]`; with 32-bit words `w[2i]` is the low and
`w[2i+1]` the high half of `E[i]`. A view only: no command reads it. -/
def limbs (w : WordBits) (r : ScalarReg) : List Nat :=
  match w with
  | .w64 => r.toList.map BitVec.toNat
  | .w32 => r.toList.flatMap fun e => [e.toNat % 2 ^ 32, e.toNat / 2 ^ 32]

/-- Bus word `j` of a register: `bits[32j+31:32j]` (R53). -/
def busWord {n : Nat} (x : BitVec n) (j : Nat) : BusWord := x.extractLsb' (32 * j) 32

/-- A register with its bus word `j` replaced; the other bits stay (R52, R53). -/
def setBusWord {n : Nat} (x : BitVec n) (j : Nat) (v : BusWord) : BitVec n :=
  (x &&& ~~~((BitVec.allOnes 32).setWidth n <<< (32 * j))) ||| (v.setWidth n <<< (32 * j))

/-- Bus word `j` of a constant of the window (R53(e)). -/
def constWord (x j : Nat) : BusWord := BitVec.ofNat 32 (x / 2 ^ (32 * j))

end Sys2Proof.Machine
end

