-- ==== Sys2Proof/Machine/Ops.lean ====
section
/-! DEFINITION. The named operations over the byte buffer and the registers, how a command ends (spec 30_encoding R80,
60_exceptions R160 to R168), taking the fault, and the reset input, the one way out of it (70_reset_and_hazards R180). -/

namespace Sys2Proof.Machine

/-- Byte `a` of the buffer: the listed byte, or 0 where none is listed (R28; log 11). -/
def Memory.read : Memory → Nat → Byte
  | [], _ => 0
  | (b, v) :: m, a => if b = a then v else Memory.read m a

/-- The pair put before the first greater byte number. -/
def Memory.insert (a : Nat) (v : Byte) : Memory → Memory
  | [] => [(a, v)]
  | (b, w) :: m => if a < b then (a, v) :: (b, w) :: m else (b, w) :: Memory.insert a v m

/-- `B[a] <- v`, keeping the canonical form: writing 0 removes the entry (R13; log 11). -/
def Memory.write (m : Memory) (a : Nat) (v : Byte) : Memory :=
  if v = 0 then m.filter (fun c => decide (c.1 ≠ a)) else Memory.insert a v (m.filter (fun c => decide (c.1 ≠ a)))

/-- The canonical form from byte number `lo` on: strictly rising, inside the buffer, no listed 0. -/
def Memory.wfFrom : Nat → Memory → Bool
  | _, [] => true
  | lo, (a, v) :: m => decide (lo ≤ a) && decide (a < bufBytes) && decide (v ≠ 0) && Memory.wfFrom (a + 1) m

/-- The canonical form of the buffer (log 11): equal contents are equal data. -/
def Memory.wf (m : Memory) : Bool := Memory.wfFrom 0 m

/-- `B[a .. a+n-1]` (R13). -/
def Memory.readBytes (m : Memory) (a n : Nat) : List Byte := (List.range n).map fun j => m.read (a + j)

/-- `B[a .. a+n-1] <- bs`, n the length of bs (R13). -/
def Memory.writeBytes (m : Memory) (a : Nat) : List Byte → Memory
  | [] => m
  | b :: bs => Memory.writeBytes (m.write a b) (a + 1) bs

/-- `be32` of each integer in turn, from byte `a` on, 32 bytes each (R130). -/
def Memory.writeElems (m : Memory) (a : Nat) : List Nat → Memory
  | [] => m
  | x :: xs => Memory.writeElems (m.writeBytes a (be32 x)) (a + elemBytes) xs

/-- `I[i]` read (R13, R22). -/
def State.getI (s : State) (i : IReg) : Int512 := s.ints[i.val]

/-- `I[i] <- v` (R13, R22). -/
def State.setI (s : State) (i : IReg) (v : Int512) : State := { s with ints := s.ints.set i.val v }

/-- `I[i] <- x` for a result of a decode: the whole register, zero-extended (R104, R108(f)). -/
def State.setInt (s : State) (i : IReg) (x : Nat) : State := s.setI i (BitVec.ofNat 512 x)

/-- `S[i]` read (R13, R23). -/
def State.getS (s : State) (i : SReg) : ScalarReg := s.scalars[i.val]

/-- `S[i] <- v` (R13, R23). -/
def State.setS (s : State) (i : SReg) (v : ScalarReg) : State := { s with scalars := s.scalars.set i.val v }

/-- `F[i]` read (R13, R25). -/
def State.getF (s : State) (i : FReg) : FieldReg := s.fields[i.val]

/-- `F[i] <- v` (R13, R25). -/
def State.setF (s : State) (i : FReg) (v : FieldReg) : State := { s with fields := s.fields.set i.val v }

/-- `Q[i]` read (R13, R27). -/
def State.getQ (s : State) (i : QReg) : QuadReg := s.quads[i.val]

/-- `Q[i] <- v` (R13, R27). -/
def State.setQ (s : State) (i : QReg) (v : QuadReg) : State := { s with quads := s.quads.set i.val v }

/-- The buffer replaced (R28). -/
def State.setBuf (s : State) (m : Memory) : State := { s with buf := m }

/-- `BLEN <- n` (R28). -/
def State.setBlen (s : State) (n : BusWord) : State := { s with blen := n }

/-- The fault state: `STATUS.FAULT = 1` (R29, R168). -/
def State.faulted (s : State) : Bool := statusFault s.status

/-- `STATUS.CODE` (R29). -/
def State.code (s : State) : BitVec 4 := statusCode s.status

/-- `STATUS.CODE <- c` (R80). -/
def State.setCode (s : State) (c : Code) : State := { s with status := statusSetCode s.status c }

/-- Taking the fault ContractViolation: `STATUS.CODE <- 4`, `STATUS.FAULT <- 1`, no other write. There is no saved
register, mode or handler (R164, R171). -/
def State.takeFault (s : State) : State := { s.setCode .contractViolation with status := statusSetFault (s.setCode .contractViolation).status }

/-- How a command ends (R15). `ok` carries the state with all its register writes made. -/
inductive Ending where
  | ok (s : State)
  | lengthMismatch
  | encodingOverflow
  | illegalCommand
  | contractViolation
deriving DecidableEq, Repr

/-- The ending of a command whose writes depend on digit checks: all its writes when every check passes, else
ContractViolation, whichever check fails (R164, R166). -/
def Ending.ofChecked : Option State → Ending
  | some t => .ok t
  | none => .contractViolation

/-- The state after a command that started in `s` (R80): the writes and `CODE <- 0`, or the code of the signal alone,
or the fault alone. -/
def State.conclude (s : State) : Ending → State
  | .ok t => t.setCode .ok
  | .lengthMismatch => s.setCode .lengthMismatch
  | .encodingOverflow => s.setCode .encodingOverflow
  | .illegalCommand => s.setCode .illegalCommand
  | .contractViolation => s.takeFault

/-- The step of one command (R80, R166): nothing at all in the fault state, else its rule evaluated on the state as it is. -/
def State.command (s : State) (rule : State → Ending) : Host.Outcome State Fault Refusal :=
  if s.faulted then .next s else .next (s.conclude (rule s))

/-- `B[32k .. 32k+31]` (R71). -/
def State.readElem (s : State) (k : Nat) : List Byte := s.buf.readBytes (elemBytes * k) elemBytes

/-- `fenc(be_uint(B[32k .. 32k+31]))` in register form (R122, R133). -/
def State.fencElem (s : State) (k : Nat) : Option FieldReg := fencReg s.params (beUint (s.readElem k))

/-- The quadratic register of the wire pair `j`: elements `2j` (a) and `2j+1` (b) (R130, R135, R137). -/
def State.fencElemPair (s : State) (j : Nat) : Option QuadReg :=
  fencPair s.params (beUint (s.readElem (2 * j))) (beUint (s.readElem (2 * j + 1)))

/-- Marshal: each register decoded, the integers written as consecutive elements from byte 0, and `BLEN` set to their
length in bytes (R132, R134, R136). -/
def State.marshal (s : State) (rs : List FieldReg) (len : BusWord) : Ending :=
  .ofChecked do
    let xs ← fdecAll s.params rs
    return (s.setBuf (s.buf.writeElems 0 xs)).setBlen len

/-- The buffer of free bytes of draw number `n` (R38; log 5). -/
def Memory.drawn (n : Nat) : Memory := Memory.writeBytes [] 0 ((List.range bufBytes).map (Config.freeByte n))

/-- The reset input asserted and released (R180, R38): `STATUS = 0`, `BLEN = 0`, the constants unchanged, every data
register a free value; the only way out of the fault state. The host's own fields stay (log 5, 10). -/
def State.resetInput (s : State) : State :=
  { s with
    ints := Vector.ofFn fun i => Config.freeInt s.draws i.val
    scalars := Vector.ofFn fun i => Vector.ofFn fun j => Config.freeScalar s.draws i.val j.val
    fields := Vector.ofFn fun i => Vector.ofFn fun k => Config.freeField s.draws i.val k.val
    quads := Vector.ofFn fun i => Vector.ofFn fun t => Config.freeQuad s.draws i.val t.val
    buf := Memory.drawn s.draws
    blen := 0
    status := 0
    draws := s.draws + 1 }

end Sys2Proof.Machine
end

