-- ==== Sys2Proof/Machine/BaseField.lean ====
section
/-! DEFINITION. The base-field codec: `FENC`, `FDEC` (spec 41_base_field_codec R101 to R108). -/

namespace Sys2Proof.Machine

/-- The rule of `FENC Fd, Is` (R102): also for an unreduced integer (R107). -/
def fencRule (d : FReg) (r : IReg) (s : State) : Ending :=
  .ofChecked do
    let D ← fencReg s.params (s.getI r).toNat
    return s.setF d D

/-- `FENC Fd, Is` (R102). -/
def execFenc (d : FReg) (r : IReg) (s : State) : Host.Outcome State Fault Refusal := s.command (fencRule d r)

/-- The rule of `FDEC Id, Fs` (R104). -/
def fdecRule (d : IReg) (r : FReg) (s : State) : Ending :=
  .ofChecked do
    let x ← fdecReg s.params (s.getF r)
    return s.setInt d x

/-- `FDEC Id, Fs` (R104). -/
def execFdec (d : IReg) (r : FReg) (s : State) : Host.Outcome State Fault Refusal := s.command (fdecRule d r)

end Sys2Proof.Machine
end

