-- ==== Sys2Proof/Machine/Bytes.lean ====
section
/-! DEFINITION. The byte serializer and deserializer: `FTOB`, `BTOF` (spec 43_byte_serializer R120 to R123). -/

namespace Sys2Proof.Machine

/-- The rule of `FTOB Fs, K`: the digits decoded, the integer written as element `K`; `BLEN` is not touched (R121). -/
def ftobRule (r : FReg) (k : Elem) (s : State) : Ending :=
  .ofChecked do
    let x ← fdecReg s.params (s.getF r)
    return s.setBuf (s.buf.writeBytes (elemBytes * k.val) (be32 x))

/-- `FTOB Fs, K` (R121). -/
def execFtob (r : FReg) (k : Elem) (s : State) : Host.Outcome State Fault Refusal := s.command (ftobRule r k)

/-- The rule of `BTOF Fd, K`: no length check, no comparison with `P` (R122). -/
def btofRule (d : FReg) (k : Elem) (s : State) : Ending :=
  .ofChecked do
    let D ← s.fencElem k.val
    return s.setF d D

/-- `BTOF Fd, K` (R122). -/
def execBtof (d : FReg) (k : Elem) (s : State) : Host.Outcome State Fault Refusal := s.command (btofRule d k)

end Sys2Proof.Machine
end

