-- ==== Sys2Proof/Machine/Points.lean ====
section
/-! DEFINITION. The point codec: `MG1`, `UG1`, `MG2`, `UG2`, `MGT`, `UGT` on the fixed registers of 10_state R33 (spec
44_point_codec R130 to R139). The length is checked before any byte is read (R166), and nothing else is (R131). -/

namespace Sys2Proof.Machine

/-- The two halves of a quadratic register in wire order, a then b (R130; for GT the spec's decision D19, log 15). -/
def halves (T : QuadReg) : List FieldReg := [dilA T, dilB T]

/-- The rule of `MG1`: x from `F0`, y from `F1` (R132). -/
def mg1Rule (s : State) : Ending := s.marshal [s.getF 0, s.getF 1] 64

/-- `MG1` (R132). -/
def execMg1 (s : State) : Host.Outcome State Fault Refusal := s.command mg1Rule

/-- The rule of `UG1`: x to `F0`, y to `F1`, the markers to `F2` and `F3` (R133). -/
def ug1Rule (s : State) : Ending :=
  if s.blen ≠ 64 then .lengthMismatch else .ofChecked do
    let x ← s.fencElem 0
    let y ← s.fencElem 1
    return (((s.setF 0 x).setF 1 y).setF 2 oneField).setF 3 zeroField

/-- `UG1` (R133). -/
def execUg1 (s : State) : Host.Outcome State Fault Refusal := s.command ug1Rule

/-- The rule of `MG2`: x from `Q0`, y from `Q1` (R134). -/
def mg2Rule (s : State) : Ending := s.marshal (halves (s.getQ 0) ++ halves (s.getQ 1)) 128

/-- `MG2` (R134). -/
def execMg2 (s : State) : Host.Outcome State Fault Refusal := s.command mg2Rule

/-- The rule of `UG2`: x to `Q0`, y to `Q1`, the markers to `Q2` and `Q3` (R135). -/
def ug2Rule (s : State) : Ending :=
  if s.blen ≠ 128 then .lengthMismatch else .ofChecked do
    let x ← s.fencElemPair 0
    let y ← s.fencElemPair 1
    return (((s.setQ 0 x).setQ 1 y).setQ 2 oneQuad).setQ 3 zeroQuad

/-- `UG2` (R135). -/
def execUg2 (s : State) : Host.Outcome State Fault Refusal := s.command ug2Rule

/-- The rule of `MGT`: the slots a.a, a.b, a.c, b.a, b.b, b.c from `Q0..Q5` (R136). -/
def mgtRule (s : State) : Ending :=
  s.marshal (halves (s.getQ 0) ++ halves (s.getQ 1) ++ halves (s.getQ 2) ++ halves (s.getQ 3) ++ halves (s.getQ 4)
    ++ halves (s.getQ 5)) 384

/-- `MGT` (R136). -/
def execMgt (s : State) : Host.Outcome State Fault Refusal := s.command mgtRule

/-- The rule of `UGT`: the six slots to `Q0..Q5` (R137). -/
def ugtRule (s : State) : Ending :=
  if s.blen ≠ 384 then .lengthMismatch else .ofChecked do
    let q0 ← s.fencElemPair 0
    let q1 ← s.fencElemPair 1
    let q2 ← s.fencElemPair 2
    let q3 ← s.fencElemPair 3
    let q4 ← s.fencElemPair 4
    let q5 ← s.fencElemPair 5
    return (((((s.setQ 0 q0).setQ 1 q1).setQ 2 q2).setQ 3 q3).setQ 4 q4).setQ 5 q5

/-- `UGT` (R137). -/
def execUgt (s : State) : Host.Outcome State Fault Refusal := s.command ugtRule

end Sys2Proof.Machine
end

