-- ==== Sys2Proof/Machine/Quadratic.lean ====
section
/-! DEFINITION. The quadratic-extension codec: `QILV`, `QDIL`, `QENC`, `QDEC` (spec 42_quadratic_extension_codec R110 to
R115). The two destinations of `QDIL` and `QDEC` are different in every word that decodes; a term that names one register
twice is the illegal command (R76; log 14). -/

namespace Sys2Proof.Machine

/-- The rule of `QILV Qd, Fa, Fb`: patterns copied as they are, no range check (R111). -/
def qilvRule (d : QReg) (a b : FReg) (s : State) : Ending := .ok (s.setQ d (ilv (s.getF a) (s.getF b)))

/-- `QILV Qd, Fa, Fb` (R111). -/
def execQilv (d : QReg) (a b : FReg) (s : State) : Host.Outcome State Fault Refusal := s.command (qilvRule d a b)

/-- The rule of `QDIL Fa, Fb, Qs`: patterns copied as they are, no range check (R112). -/
def qdilRule (a b : FReg) (r : QReg) (s : State) : Ending :=
  if a = b then .illegalCommand else .ok ((s.setF a (dilA (s.getQ r))).setF b (dilB (s.getQ r)))

/-- `QDIL Fa, Fb, Qs` (R112). -/
def execQdil (a b : FReg) (r : QReg) (s : State) : Host.Outcome State Fault Refusal := s.command (qdilRule a b r)

/-- The rule of `QENC Qd, Ia, Ib` (R113). -/
def qencRule (d : QReg) (a b : IReg) (s : State) : Ending :=
  .ofChecked do
    let T ← fencPair s.params (s.getI a).toNat (s.getI b).toNat
    return s.setQ d T

/-- `QENC Qd, Ia, Ib` (R113). -/
def execQenc (d : QReg) (a b : IReg) (s : State) : Host.Outcome State Fault Refusal := s.command (qencRule d a b)

/-- The rule of `QDEC Ia, Ib, Qs` (R114): neither register is written when either half is out of range. -/
def qdecRule (a b : IReg) (r : QReg) (s : State) : Ending :=
  if a = b then .illegalCommand else .ofChecked do
    let xa ← fdecReg s.params (dilA (s.getQ r))
    let xb ← fdecReg s.params (dilB (s.getQ r))
    return (s.setInt a xa).setInt b xb

/-- `QDEC Ia, Ib, Qs` (R114). -/
def execQdec (a b : IReg) (r : QReg) (s : State) : Host.Outcome State Fault Refusal := s.command (qdecRule a b r)

end Sys2Proof.Machine
end

