-- ==== Sys2Proof/Machine/Scalar.lean ====
section
/-! DEFINITION. The scalar codec: `SENC`, `SDEC` (spec 40_scalar_codec R90 to R94). -/

namespace Sys2Proof.Machine

/-- The rule of `SENC Sd, Is`: EncodingOverflow when `I[s] >= 2^256`, else the four words; nothing else is checked
(R90, R91). -/
def sencRule (d : SReg) (r : IReg) (s : State) : Ending :=
  if (s.getI r).toNat ≥ 2 ^ 256 then .encodingOverflow else .ok (s.setS d (scalarWords (s.getI r)))

/-- `SENC Sd, Is` (R90). -/
def execSenc (d : SReg) (r : IReg) (s : State) : Host.Outcome State Fault Refusal := s.command (sencRule d r)

/-- The rule of `SDEC Id, Ss`: total, the whole integer register written (R92). -/
def sdecRule (d : IReg) (r : SReg) (s : State) : Ending := .ok (s.setInt d (sval (s.getS r)))

/-- `SDEC Id, Ss` (R92). -/
def execSdec (d : IReg) (r : SReg) (s : State) : Host.Outcome State Fault Refusal := s.command (sdecRule d r)

end Sys2Proof.Machine
end

