-- ==== Sys2Proof/Machine/System.lean ====
section
/-! DEFINITION. The system command `NOP` (spec 45_system R150). -/

namespace Sys2Proof.Machine

/-- `NOP`: no register is written; the command ends `OK`, so `CODE <- 0` (R150). -/
def execNop (s : State) : Host.Outcome State Fault Refusal := s.command .ok

end Sys2Proof.Machine
end

