-- ==== Sys2Proof/Machine/Dispatch.lean ====
section
/-! DEFINITION. One arm per command (spec 30_encoding R74). -/

namespace Sys2Proof.Machine

def exec (i : Instr) (s : State) : Host.Outcome State Fault Refusal :=
  match i with
  | .nop => Sys2Proof.Machine.execNop s
  | .senc d r => Sys2Proof.Machine.execSenc d r s
  | .sdec d r => Sys2Proof.Machine.execSdec d r s
  | .fenc d r => Sys2Proof.Machine.execFenc d r s
  | .fdec d r => Sys2Proof.Machine.execFdec d r s
  | .qilv d a b => Sys2Proof.Machine.execQilv d a b s
  | .qdil a b r => Sys2Proof.Machine.execQdil a b r s
  | .qenc d a b => Sys2Proof.Machine.execQenc d a b s
  | .qdec a b r => Sys2Proof.Machine.execQdec a b r s
  | .ftob r k => Sys2Proof.Machine.execFtob r k s
  | .btof d k => Sys2Proof.Machine.execBtof d k s
  | .mg1 => Sys2Proof.Machine.execMg1 s
  | .ug1 => Sys2Proof.Machine.execUg1 s
  | .mg2 => Sys2Proof.Machine.execMg2 s
  | .ug2 => Sys2Proof.Machine.execUg2 s
  | .mgt => Sys2Proof.Machine.execMgt s
  | .ugt => Sys2Proof.Machine.execUgt s

end Sys2Proof.Machine
end

