-- ==== Sys2Proof/Machine/Port.lean ====
section
/-! DEFINITION. The host port: the address map, what a read returns and what a write to a register does (spec 20_memory
R50 to R59, 10_state R29 to R31, R36). A write to `CMD` is served in Machine/Serve.lean. -/

namespace Sys2Proof.Machine

/-- What stands behind a bus word of the window (R51). -/
inductive Target where
  | id
  | cfg
  | cmd
  | status
  | blen
  /-- Word `j` of `CONST_V`. -/
  | constV (j : Fin 2)
  /-- Word `j` of `CONST_P`. -/
  | constP (j : Fin 8)
  /-- Word `j` of `CONST_ORDER`. -/
  | constOrder (j : Fin 8)
  /-- Bus word `j` of `I[i]`. -/
  | int (i : IReg) (j : Fin 16)
  /-- Bus word `j` of `S[i]`. -/
  | scalar (i : SReg) (j : Fin 8)
  /-- Bus word `j` of `F[i]`. -/
  | field (i : FReg) (j : Fin 24)
  /-- Bus word `j` of `Q[i]`. -/
  | quad (i : QReg) (j : Fin 48)
  /-- Bus word `m` of the byte buffer. -/
  | buffer (m : Fin 96)
  /-- A reserved offset (R55). -/
  | reserved
deriving DecidableEq, Repr

/-- The five single registers at the bottom of the window, and what is reserved beside them (R51). -/
def targetLow (off : Nat) : Target :=
  if off = 0x000 then .id
  else if off = 0x004 then .cfg
  else if off = 0x008 then .cmd
  else if off = 0x00C then .status
  else if off = 0x010 then .blen
  else .reserved

/-- The address map (R51), for an aligned byte offset; what no row names is reserved. -/
def target (off : Nat) : Target :=
  if off < 0x20 then targetLow off
  else if h : 0x20 ≤ off ∧ off < 0x28 then .constV ⟨(off - 0x20) / 4, by omega⟩
  else if h : 0x40 ≤ off ∧ off < 0x60 then .constP ⟨(off - 0x40) / 4, by omega⟩
  else if h : 0x60 ≤ off ∧ off < 0x80 then .constOrder ⟨(off - 0x60) / 4, by omega⟩
  else if h : 0x100 ≤ off ∧ off < 0x200 then
    .int ⟨(off - 0x100) / 0x40, by omega⟩ ⟨(off - 0x100) % 0x40 / 4, by omega⟩
  else if h : 0x200 ≤ off ∧ off < 0x240 then
    .scalar ⟨(off - 0x200) / 0x20, by omega⟩ ⟨(off - 0x200) % 0x20 / 4, by omega⟩
  else if h : (0x400 ≤ off ∧ off < 0x600) ∧ (off - 0x400) % 0x80 < 0x60 then
    .field ⟨(off - 0x400) / 0x80, by omega⟩ ⟨(off - 0x400) % 0x80 / 4, by omega⟩
  else if h : (0x800 ≤ off ∧ off < 0xE00) ∧ (off - 0x800) % 0x100 < 0xC0 then
    .quad ⟨(off - 0x800) / 0x100, by omega⟩ ⟨(off - 0x800) % 0x100 / 4, by omega⟩
  else if h : 0x1000 ≤ off ∧ off < 0x1180 then .buffer ⟨(off - 0x1000) / 4, by omega⟩
  else .reserved

/-- `ID`: "BN", interface version 1, revision 0 (R30). -/
def idWord : BusWord := 0x424E0100#32

/-- `CFG`: `WORD_BITS` in [7:0], `W` in [15:8], `NDIG` in [23:16] (R30). -/
def cfgWord (p : Params) : BusWord :=
  BitVec.ofNat 32 (p.wordBits.bits + p.wordBits.words * 2 ^ 8 + nDig * 2 ^ 16)

/-- Bus word `m` of the buffer: `B[4m]` in bits [7:0] up to `B[4m+3]` in bits [31:24] (R54). -/
def bufferWord (b : Memory) (m : Nat) : BusWord :=
  BitVec.ofNat 32 ((b.read (4 * m)).toNat + (b.read (4 * m + 1)).toNat * 2 ^ 8
    + (b.read (4 * m + 2)).toNat * 2 ^ 16 + (b.read (4 * m + 3)).toNat * 2 ^ 24)

/-- The four bytes of a bus word, bits [7:0] first (R54). -/
def lanes (v : BusWord) : List Byte := (List.range 4).map fun n => v.extractLsb' (8 * n) 8

/-- The word a read returns: no side effect (R57); 0 for `CMD` and for reserved offsets (R31, R55). -/
def State.readTarget (s : State) : Target → BusWord
  | .id => idWord
  | .cfg => cfgWord s.params
  | .cmd => 0
  | .status => s.status
  | .blen => s.blen
  | .constV j => constWord s.params.V j.val
  | .constP j => constWord (s.params.P % 2 ^ 256) j.val
  | .constOrder j => constWord s.params.order j.val
  | .int i j => busWord (s.getI i) j.val
  | .scalar i j => busWord (s.getS i)[j.val / 2] (j.val % 2)
  | .field i j => busWord (s.getF i)[j.val / 2] (j.val % 2)
  | .quad i j => busWord (s.getQ i)[j.val / 2] (j.val % 2)
  | .buffer m => bufferWord s.buf m.val
  | .reserved => 0

/-- A register of 64-bit cells with bus word `j` replaced (R53(b) to (d)). -/
def setCellWord {n : Nat} (r : Vector Cell64 n) (j : Nat) (h : j / 2 < n) (v : BusWord) : Vector Cell64 n :=
  r.set (j / 2) (setBusWord r[j / 2] (j % 2) v)

/-- A host write to anything but `CMD`: that word and nothing else changes (R57); writes to read-only registers and
reserved offsets are ignored (R55). Accepted in the fault state too (R36, R168). -/
def State.writeTarget (s : State) (t : Target) (v : BusWord) : State :=
  match t with
  | .blen => s.setBlen v
  | .int i j => s.setI i (setBusWord (s.getI i) j.val v)
  | .scalar i j => s.setS i (setCellWord (s.getS i) j.val (by omega) v)
  | .field i j => s.setF i (setCellWord (s.getF i) j.val (by omega) v)
  | .quad i j => s.setQ i (setCellWord (s.getQ i) j.val (by omega) v)
  | .buffer m => s.setBuf (s.buf.writeBytes (4 * m.val) (lanes v))
  | .id | .cfg | .cmd | .status | .constV _ | .constP _ | .constOrder _ | .reserved => s

/-- The host takes the word its read returned (log 7). -/
def State.reply (s : State) (w : BusWord) : State := { s with replies := s.replies ++ [w] }

/-- The host's next transaction and the state without it (R32, R59; log 6). -/
def State.fetch (s : State) : Option (Request × State) :=
  match s.port with
  | [] => none
  | r :: rest => some (r, { s with port := rest })

/-- An access of the port is one aligned 32-bit word inside the window (R52). -/
def accessOk (off size : Nat) : Bool := decide (off % 4 = 0) && decide (size = 4)

end Sys2Proof.Machine
end

