-- ==== Sys2Proof/Machine/Serve.lean ====
section
/-! DEFINITION. Serving one host transaction: a read, a register write, a command, the reset input (spec 20_memory R52,
R57, R59; 30_encoding R80; 70_reset_and_hazards R180). -/

namespace Sys2Proof.Machine

/-- The word `c` written to `CMD`: an illegal word signals IllegalCommand, a command runs its rule (R31, R76, R80). -/
def runWord (c : BusWord) (s : State) : Host.Outcome State Fault Refusal :=
  match decode c with
  | .error _ => s.command fun _ => .illegalCommand
  | .ok i => exec i s

/-- A well-formed write: a write to `CMD` executes its data as a command, any other writes its register (R57). -/
def serveWrite (t : Target) (v : BusWord) (s : State) : Host.Outcome State Fault Refusal :=
  if t = .cmd then runWord v s else .next (s.writeTarget t v)

/-- One transaction served whole (R58, R59). An access outside the window faults and an ill-formed one is refused (R52;
log 9). -/
def serve (r : Request) (s : State) : Host.Outcome State Fault Refusal :=
  match r with
  | .reset => .next s.resetInput
  | .read off size =>
    if off ≥ 0x2000 then .fault (.outsideWindow off)
    else if accessOk off size then .next (s.reply (s.readTarget (target off)))
    else .refused (.illFormedAccess off size)
  | .write off size v =>
    if off ≥ 0x2000 then .fault (.outsideWindow off)
    else if accessOk off size then serveWrite (target off) v s
    else .refused (.illFormedAccess off size)

end Sys2Proof.Machine
end

