-- ==== Sys2Proof/Machine/Step.lean ====
section
/-! DEFINITION. One step of the machine: the host's next transaction is served (spec 20_memory R59, 10_state R32). -/

namespace Sys2Proof.Machine

/-- The next transaction of the host is taken and served; with none left the BCU is idle and keeps all state (R178). -/
def step (s : State) : Host.Outcome State Fault Refusal :=
  match s.fetch with
  | none => .next s
  | some (r, t) => serve r t

/-- The state whose very next step writes the table word `w` of `nbits` bits to `CMD`, so that it is the next command
run (R31; log 6): a host write put before the host's other transactions. -/
def State.withFetchWord (s : State) (nbits w : Nat) : State :=
  { s with port := .write 0x008 4 (BitVec.ofNat 32 (w % 2 ^ nbits)) :: s.port }

end Sys2Proof.Machine
end

