-- ==== Sys2Proof/Machine/Program.lean ====
section
/-! DEFINITION. The host's program as the assembler writes it: one transaction a line (spec 30_encoding R81). -/

namespace Sys2Proof.Machine

/-- One line of a program (R81). -/
inductive Line where
  /-- `WR off, value`. -/
  | wr (off : Nat) (v : BusWord)
  /-- `RD off`. -/
  | rd (off : Nat)
  /-- `RD off -> value`, which states the word the read returns. -/
  | rdExpect (off : Nat) (v : BusWord)
  /-- A command line. -/
  | cmd (i : Instr)
deriving DecidableEq, Repr

/-- The transaction of a line: a command line stands for `WR 0x008, <encoding>` (R81). -/
def Line.request : Line → Request
  | .wr off v => .write off 4 v
  | .rd off => .read off 4
  | .rdExpect off _ => .read off 4
  | .cmd i => .write 0x008 4 (encode i)

/-- The words a program's reads return, where its lines state them: `none` for a read with no stated word. -/
def expectations : List Line → List (Option BusWord)
  | [] => []
  | .rd _ :: ls => none :: expectations ls
  | .rdExpect _ v :: ls => some v :: expectations ls
  | .wr _ _ :: ls => expectations ls
  | .cmd _ :: ls => expectations ls

/-- The replies meet what the program states of its reads (R81). -/
def repliesMeet : List (Option BusWord) → List BusWord → Bool
  | [], [] => true
  | none :: es, _ :: ws => repliesMeet es ws
  | some v :: es, w :: ws => decide (v = w) && repliesMeet es ws
  | _, _ => false

/-- A program put before the BCU's port (R32, R81; log 6). -/
def State.load (s : State) (ls : List Line) : State := { s with port := s.port ++ ls.map Line.request }

end Sys2Proof.Machine
end

