-- ==== Sys2Proof/Safety.lean ====
section
/-! DEFINITION. The terms claims use: registers by name and what a command reads and writes, the digits and values of
the spec written once more as closed forms, what the outcome of a command must be, and which states are legal. None of
it is called by the machine. -/

namespace Sys2Proof.Machine

/-- A data register, a byte of the buffer, or `BLEN`, by name (10_state R20). -/
inductive Reg where
  | int (i : IReg)
  | scalar (i : SReg)
  | field (i : FReg)
  | quad (i : QReg)
  | byte (a : Nat)
  | blen
deriving DecidableEq, Repr

/-- Two states hold the same in register `r`. -/
def State.same (s t : State) : Reg → Prop
  | .int i => t.getI i = s.getI i
  | .scalar i => t.getS i = s.getS i
  | .field i => t.getF i = s.getF i
  | .quad i => t.getQ i = s.getQ i
  | .byte a => t.buf.read a = s.buf.read a
  | .blen => t.blen = s.blen

/-- From `s` to `t` nothing changed but the registers in `touched`, and perhaps `STATUS`: every other register, every
other byte of the buffer, the constants, the host's transactions and replies and the count of draws are as they were. -/
def State.keepsBut (s t : State) (touched : Reg → Prop) : Prop :=
  (∀ r, ¬ touched r → s.same t r) ∧ t.params = s.params ∧ t.port = s.port ∧ t.replies = s.replies ∧ t.draws = s.draws

/-- `CODE` reads `c` in `t`, and no other bit of `STATUS` differs from `s` (R29, R80). -/
def State.reports (s t : State) (c : Code) : Prop :=
  t.code = c.num ∧ ∀ b, 4 ≤ b → t.status.getLsbD b = s.status.getLsbD b

/-- `CODE` reads 4 and `FAULT` reads 1 in `t`, and no other bit of `STATUS` differs from `s` (R164). -/
def State.reportsFault (s t : State) : Prop :=
  t.code = Code.contractViolation.num ∧ t.faulted = true ∧
    ∀ b, 4 ≤ b → b ≠ 8 → t.status.getLsbD b = s.status.getLsbD b

/-- Byte `a` lies in element `k`. -/
def inElem (k : Nat) (a : Nat) : Bool := decide (32 * k ≤ a ∧ a < 32 * k + 32)

/-- The digits a field register holds (R25). -/
def fieldDigits (r : FieldReg) : Fin 12 → Int := fun k => r[k].toInt

/-- The digits of element a of a quadratic register, the odd slots (R27). -/
def digitsA (T : QuadReg) : Fin 12 → Int := fun k => T[2 * k.val + 1].toInt

/-- The digits of element b of a quadratic register, the even slots (R27). -/
def digitsB (T : QuadReg) : Fin 12 → Int := fun k => T[2 * k.val].toInt

/-- Every digit has magnitude at most `DIGIT_MAX` (R26). -/
def ranged (d : Fin 12 → Int) : Prop := ∀ k, -(digitMax : Int) ≤ d k ∧ d k ≤ (digitMax : Int)

/-- The value of a digit vector in `[0, P)`: the sum of R25, reduced. -/
def valueOf (p : Params) (d : Fin 12 → Int) : Nat :=
  ((d 0 + (∑ k ∈ Finset.Icc (1 : Fin 12) 6, d k * (6 * (p.V : Int) ^ k.val))
    + ∑ k ∈ Finset.Icc (7 : Fin 12) 11, d k * (36 * (p.V : Int) ^ k.val)) % (p.P : Int)).toNat

/-- Digit `k` of the division of R101, as one quotient and remainder of `x`. -/
def digitOf (V x : Nat) (k : Fin 12) : Nat :=
  if k = 0 then x % (6 * V)
  else if k < 6 then x / (6 * V ^ k.val) % V
  else if k = 6 then x / (6 * V ^ 6) % (6 * V)
  else if k < 11 then x / (36 * V ^ k.val) % V
  else x / (36 * V ^ 11)

/-- Digit 11 of `x` is at most `DIGIT_MAX`, so that `fenc(x)` does not fail (R101, R107). -/
def representable (p : Params) (x : Nat) : Prop := digitOf p.V x 11 ≤ digitMax

/-- A field register holds the digits of the division of `x` (R101, R102). -/
def holdsDigits (V x : Nat) (r : FieldReg) : Prop := ∀ k, fieldDigits r k = (digitOf V x k : Int)

/-- A quadratic register holds the digits of `xa` in its odd and of `xb` in its even slots (R110, R113). -/
def holdsPair (V xa xb : Nat) (T : QuadReg) : Prop :=
  ∀ k, digitsA T k = (digitOf V xa k : Int) ∧ digitsB T k = (digitOf V xb k : Int)

/-- Element `k` of the buffer is the big-endian form of `x` (R120). -/
def State.elemIs (s : State) (k x : Nat) : Prop :=
  ∀ n, n < 32 → s.buf.read (32 * k + n) = BitVec.ofNat 8 (x / 2 ^ (8 * (31 - n)))

/-- The unsigned integer element `k` of the buffer holds: the sum of R120. -/
def State.elemValue (s : State) (k : Nat) : Nat :=
  ∑ n ∈ Finset.range 32, (s.buf.read (32 * k + n)).toNat * 256 ^ (31 - n)

/-- The words `STATUS` can hold: the codes 0 to 3 without `FAULT`, and code 4 with it (R29, R168). -/
def legalStatus (w : BusWord) : Prop := w = 0 ∨ w = 1 ∨ w = 2 ∨ w = 3 ∨ w = 0x104

/-- A legal state: `STATUS` reads as R29 says, and the buffer is in its canonical form (log 11). -/
def State.legal (s : State) : Prop := legalStatus s.status ∧ s.buf.wf = true

/-- A run is good as long as the unit is not in the fault state (R168: "A run that reaches the fault state has gone
wrong"). -/
def State.good (s : State) : Prop := s.faulted = false

/-- A transaction the port can express (R52), or the reset input. -/
def Request.expressible : Request → Prop
  | .read off size => off < 0x2000 ∧ off % 4 = 0 ∧ size = 4
  | .write off size _ => off < 0x2000 ∧ off % 4 = 0 ∧ size = 4
  | .reset => True

/-- A target whose content a host write changes (R51, access RW). -/
def Target.writable : Target → Bool
  | .blen | .int _ _ | .scalar _ _ | .field _ _ | .quad _ _ | .buffer _ => true
  | _ => false

/-- A byte offset of a word that R51 marks reserved. -/
def reservedOffset (off : Nat) : Prop :=
  (0x14 ≤ off ∧ off < 0x20) ∨ (0x28 ≤ off ∧ off < 0x40) ∨ (0x80 ≤ off ∧ off < 0x100) ∨ (0x240 ≤ off ∧ off < 0x400) ∨
  (∃ i, i < 4 ∧ 0x460 + 0x80 * i ≤ off ∧ off < 0x480 + 0x80 * i) ∨ (0x600 ≤ off ∧ off < 0x800) ∨
  (∃ i, i < 6 ∧ 0x8C0 + 0x100 * i ≤ off ∧ off < 0x900 + 0x100 * i) ∨ (0xE00 ≤ off ∧ off < 0x1000) ∨
  (0x1180 ≤ off ∧ off < 0x2000)

/-- A byte offset of a word that R51 marks read-only: `ID`, `CFG`, `STATUS`, the constants window. -/
def readOnlyOffset (off : Nat) : Prop :=
  off = 0x000 ∨ off = 0x004 ∨ off = 0x00C ∨ (0x20 ≤ off ∧ off < 0x28) ∨ (0x40 ≤ off ∧ off < 0x80)

/-- For each of the seventeen opcodes, how many values each of `A`, `B`, `C`, `K` may take: 1 for a field the format does
not use, else the size of the file it indexes, or 12 for `K` (R72, R73, R74). -/
def fieldLimits (opc : Nat) : Option (Nat × Nat × Nat × Nat) :=
  if opc = 0x00 ∨ (0x50 ≤ opc ∧ opc ≤ 0x55) then some (1, 1, 1, 1)
  else if opc = 0x10 then some (2, 4, 1, 1)
  else if opc = 0x11 then some (4, 2, 1, 1)
  else if opc = 0x20 ∨ opc = 0x21 then some (4, 4, 1, 1)
  else if opc = 0x30 ∨ opc = 0x32 then some (6, 4, 4, 1)
  else if opc = 0x31 ∨ opc = 0x33 then some (4, 6, 4, 1)
  else if opc = 0x40 then some (1, 4, 1, 12)
  else if opc = 0x41 then some (4, 1, 1, 12)
  else none

/-- The conditions of R76, field by field: a reserved opcode, `Z` not zero, a field outside its limit, or the two
destinations of `QDIL` or `QDEC` the same. -/
def illegalByFields (c : BusWord) : Prop :=
  match fieldLimits (fieldOpc c) with
  | none => True
  | some (a, b, x, k) =>
    fieldZ c ≠ 0 ∨ a ≤ fieldA c ∨ b ≤ fieldB c ∨ x ≤ fieldC c ∨ k ≤ fieldK c ∨
      ((fieldOpc c = 0x31 ∨ fieldOpc c = 0x33) ∧ fieldA c = fieldC c)

end Sys2Proof.Machine

namespace Sys2Proof

open Machine

/-- The registers a command writes when it ends `OK`: the Written-by lists of R22 to R28 and the rule of each command. -/
def Instr.writes (i : Instr) (r : Reg) : Bool :=
  match i, r with
  | .senc d _, .scalar x => decide (x = d)
  | .sdec d _, .int x => decide (x = d)
  | .fenc d _, .field x => decide (x = d)
  | .fdec d _, .int x => decide (x = d)
  | .qilv d _ _, .quad x => decide (x = d)
  | .qdil a b _, .field x => decide (x = a ∨ x = b)
  | .qenc d _ _, .quad x => decide (x = d)
  | .qdec a b _, .int x => decide (x = a ∨ x = b)
  | .ftob _ k, .byte a => inElem k.val a
  | .btof d _, .field x => decide (x = d)
  | .mg1, .byte a => decide (a < 64)
  | .mg1, .blen => true
  | .mg2, .byte a => decide (a < 128)
  | .mg2, .blen => true
  | .mgt, .byte a => decide (a < 384)
  | .mgt, .blen => true
  | .ug1, .field _ => true
  | .ug2, .quad x => decide (x.val < 4)
  | .ugt, .quad _ => true
  | _, _ => false

/-- The registers a command reads: the Read-by lists of R22 to R28 and the rule of each command. -/
def Instr.reads (i : Instr) (r : Reg) : Bool :=
  match i, r with
  | .senc _ q, .int x => decide (x = q)
  | .sdec _ q, .scalar x => decide (x = q)
  | .fenc _ q, .int x => decide (x = q)
  | .fdec _ q, .field x => decide (x = q)
  | .qilv _ a b, .field x => decide (x = a ∨ x = b)
  | .qdil _ _ q, .quad x => decide (x = q)
  | .qenc _ a b, .int x => decide (x = a ∨ x = b)
  | .qdec _ _ q, .quad x => decide (x = q)
  | .ftob q _, .field x => decide (x = q)
  | .btof _ k, .byte a => inElem k.val a
  | .mg1, .field x => decide (x.val < 2)
  | .mg2, .quad x => decide (x.val < 2)
  | .mgt, .quad _ => true
  | .ug1, .byte a => decide (a < 64)
  | .ug1, .blen => true
  | .ug2, .byte a => decide (a < 128)
  | .ug2, .blen => true
  | .ugt, .byte a => decide (a < 384)
  | .ugt, .blen => true
  | _, _ => false

/-- The integers a command applies `fenc` to (R164(a)). -/
def Instr.encodes (i : Instr) (s : State) : List Nat :=
  match i with
  | .fenc _ r => [(s.getI r).toNat]
  | .qenc _ a b => [(s.getI a).toNat, (s.getI b).toNat]
  | .btof _ k => [s.elemValue k.val]
  | .ug1 => [s.elemValue 0, s.elemValue 1]
  | .ug2 => (List.range 4).map s.elemValue
  | .ugt => (List.range 12).map s.elemValue
  | _ => []

/-- The digit vectors a command applies `fdec` to (R164(b)). -/
def Instr.decodes (i : Instr) (s : State) : List (Fin 12 → Int) :=
  match i with
  | .fdec _ r => [fieldDigits (s.getF r)]
  | .qdec _ _ r => [digitsA (s.getQ r), digitsB (s.getQ r)]
  | .ftob r _ => [fieldDigits (s.getF r)]
  | .mg1 => [fieldDigits (s.getF 0), fieldDigits (s.getF 1)]
  | .mg2 => [digitsA (s.getQ 0), digitsB (s.getQ 0), digitsA (s.getQ 1), digitsB (s.getQ 1)]
  | .mgt => (List.finRange 6).flatMap fun j => [digitsA (s.getQ j), digitsB (s.getQ j)]
  | _ => []

/-- The one accepted length of an unmarshal command (R162). -/
def Instr.wantsLength : Instr → Option BusWord
  | .ug1 => some 64
  | .ug2 => some 128
  | .ugt => some 384
  | _ => none

/-- The length check fails (R162). -/
def Instr.lengthFails (i : Instr) (s : State) : Prop := ∃ n, i.wantsLength = some n ∧ s.blen ≠ n

/-- The width check of `SENC` fails (R163). -/
def Instr.widthFails (i : Instr) (s : State) : Prop := ∃ d r, i = .senc d r ∧ 2 ^ 256 ≤ (s.getI r).toNat

/-- A digit check fails: a cause of ContractViolation (R164). -/
def Instr.digitsFail (i : Instr) (s : State) : Prop :=
  (∃ x ∈ i.encodes s, ¬ representable s.params x) ∨ (∃ d ∈ i.decodes s, ¬ ranged d)

end Sys2Proof
end

