-- ==== Sys2Proof/Certificates/Slice0/Obligations.lean ====
section
/-! DEFINITION. The statements for the provers (OBLIGATIONS.json). Each docstring names the rules of spec/ it rests on. -/

open Sys2Proof Sys2Proof.Machine

/-! ### The command word -/

/-- Every well-formed command is read back from its own word, with every operand at every value (R74, R81). -/
def Obligations.DecodeOfEncodedCommand : Prop :=
  ∀ i : Instr, i.wellFormed = true → decode (encode i) = .ok i

/-- A word that decodes is the word of the command it decodes to, so no bit of it is dropped, and the command is
well-formed (R74, R75, R76). -/
def Obligations.EncodeOfDecodedWord : Prop :=
  ∀ (c : BusWord) (i : Instr), decode c = .ok i → encode i = c ∧ i.wellFormed = true

/-- R75: every 32-bit word meets exactly one row of the opcode map, and decodes to that row's command with the word's own
field values, or meets none and is illegal. -/
def Obligations.EveryWordIsOneRowOrIllegal : Prop :=
  ∀ c : BusWord,
    (∃ r ∈ opcodeTable, r.meets c = true ∧ (∀ r' ∈ opcodeTable, r'.meets c = true → r' = r) ∧
      ∃ i, decode c = .ok i ∧ i.mnemonic = r.mnemonic ∧ encode i = c) ∨
    ((∀ r ∈ opcodeTable, r.meets c = false) ∧ ∃ e, decode c = .error e)

/-- The example words of R81, and the word of `NOP` (R150). -/
def Obligations.ExampleWordsDecode : Prop :=
  decode 0x10120000#32 = .ok (.senc 1 2) ∧ decode 0x31051000#32 = .ok (.qdil 0 1 5) ∧
  decode 0x4003000B#32 = .ok (.ftob 3 11) ∧ decode 0x55000000#32 = .ok .ugt ∧ decode 0x00000000#32 = .ok .nop ∧
  Instr.text (.senc 1 2) = "SENC S1, I2" ∧ Instr.text (.qdil 0 1 5) = "QDIL F0, F1, Q5"

/-- R76: a word is illegal exactly when one of the conditions of R76 holds of its fields, and executing an illegal word
sets `CODE` to 3 and changes nothing else. -/
def Obligations.IllegalExactlyByFields : Prop :=
  ∀ c : BusWord,
    ((∃ e, decode c = .error e) ↔ illegalByFields c) ∧
    (illegalByFields c → ∀ s : State, s.faulted = false →
      ∃ t, runWord c s = .next t ∧ s.reports t .illegalCommand ∧ s.keepsBut t (fun _ => False))

/-! ### The step and the port -/

/-- When the host's next transaction writes a word to `CMD` that decodes to `i`, the step is `exec i` on the state
without that transaction (R31, R80). -/
def Obligations.StepRunsTheDecodedCommand : Prop :=
  ∀ (s : State) (c : BusWord) (i : Instr) (rest : List Request), s.port = .write 0x008 4 c :: rest →
    decode c = .ok i → step s = exec i { s with port := rest }

/-- R165: an illegal word sets `CODE` to 3, nothing else changes, and the unit goes on executing commands. -/
def Obligations.IllegalWordOnlySetsTheCode : Prop :=
  ∀ (s : State) (c : BusWord) (e : Illegal) (rest : List Request), s.port = .write 0x008 4 c :: rest →
    decode c = .error e → s.faulted = false →
    ∃ t, step s = .next t ∧ s.reports t .illegalCommand ∧
      State.keepsBut { s with port := rest } t (fun _ => False) ∧ t.faulted = false

/-- R168: in the fault state a write to `CMD` is ignored, `STATUS` reads 0x104 after every transaction but the reset
input, host reads and writes of the other registers work as always, and the reset input clears the fault. -/
def Obligations.FaultStateLastsUntilReset : Prop :=
  ∀ (s : State) (r : Request) (rest : List Request), s.legal → s.faulted = true → s.port = r :: rest →
    s.status = 0x104 ∧
    (∀ c, r = .write 0x008 4 c → step s = .next { s with port := rest }) ∧
    (∀ t, r ≠ .reset → step s = .next t → t.status = 0x104) ∧
    (∀ off v, off < 0x2000 → off % 4 = 0 → off ≠ 0x008 → r = .write off 4 v →
      step s = .next (State.writeTarget { s with port := rest } (target off) v)) ∧
    (∀ off, off < 0x2000 → off % 4 = 0 → r = .read off 4 →
      step s = .next (State.reply { s with port := rest } (s.readTarget (target off)))) ∧
    (r = .reset → ∃ t, step s = .next t ∧ t.faulted = false)

/-- With no transaction left the BCU is idle and keeps all state (R178; that a step is still taken is the model's, log 6). -/
def Obligations.IdleKeepsAllState : Prop :=
  ∀ s : State, s.port = [] → step s = .next s

/-- A host read returns the word behind its offset and changes nothing of the unit, so the same read made again returns
the same word (R57). -/
def Obligations.ReadsHaveNoSideEffect : Prop :=
  ∀ (s : State) (off : Nat) (rest : List Request), off < 0x2000 → off % 4 = 0 →
    s.port = .read off 4 :: .read off 4 :: rest →
    ∃ t u w, step s = .next t ∧ step t = .next u ∧ w = s.readTarget (target off) ∧
      u = { s with port := rest, replies := s.replies ++ [w, w] }

/-- R53: the bus words of the wide registers and of the constants, least significant word first. -/
def Obligations.RegisterWordsOnThePort : Prop :=
  ∀ s : State,
    (∀ (i : IReg) (j : Fin 16),
      (s.readTarget (target (0x100 + 0x40 * i.val + 4 * j.val))).toNat = (s.getI i).toNat / 2 ^ (32 * j.val) % 2 ^ 32) ∧
    (∀ (i : SReg) (j : Fin 8),
      (s.readTarget (target (0x200 + 0x20 * i.val + 4 * j.val))).toNat = sval (s.getS i) / 2 ^ (32 * j.val) % 2 ^ 32) ∧
    (∀ (i : SReg) (m : Fin 4),
      (s.readTarget (target (0x200 + 0x20 * i.val + 8 * m.val))).toNat = (s.getS i)[m].toNat % 2 ^ 32 ∧
      (s.readTarget (target (0x200 + 0x20 * i.val + 8 * m.val + 4))).toNat = (s.getS i)[m].toNat / 2 ^ 32) ∧
    (∀ (i : FReg) (k : Fin 12),
      (s.readTarget (target (0x400 + 0x80 * i.val + 8 * k.val))).toNat = (s.getF i)[k].toNat % 2 ^ 32 ∧
      (s.readTarget (target (0x400 + 0x80 * i.val + 8 * k.val + 4))).toNat = (s.getF i)[k].toNat / 2 ^ 32) ∧
    (∀ (i : QReg) (k : Fin 24),
      (s.readTarget (target (0x800 + 0x100 * i.val + 8 * k.val))).toNat = (s.getQ i)[k].toNat % 2 ^ 32 ∧
      (s.readTarget (target (0x800 + 0x100 * i.val + 8 * k.val + 4))).toNat = (s.getQ i)[k].toNat / 2 ^ 32) ∧
    ((s.readTarget (target 0x020)).toNat = s.params.V % 2 ^ 32 ∧
      (s.readTarget (target 0x024)).toNat = s.params.V / 2 ^ 32) ∧
    (∀ j : Fin 8,
      (s.readTarget (target (0x040 + 4 * j.val))).toNat = s.params.P / 2 ^ (32 * j.val) % 2 ^ 32 ∧
      (s.readTarget (target (0x060 + 4 * j.val))).toNat = s.params.order / 2 ^ (32 * j.val) % 2 ^ 32)

/-- R54: on the port, byte `4m + n` of the buffer is bits [8n+7:8n] of the bus word at `0x1000 + 4m`, in a read and in a
write, and a write there changes no other byte. -/
def Obligations.BufferBytesOnThePort : Prop :=
  ∀ (s : State) (m : Fin 96) (n : Fin 4) (v : BusWord),
    (s.readTarget (target (0x1000 + 4 * m.val))).toNat / 2 ^ (8 * n.val) % 2 ^ 8 = (s.buf.read (4 * m.val + n.val)).toNat ∧
    ((s.writeTarget (target (0x1000 + 4 * m.val)) v).buf.read (4 * m.val + n.val)).toNat
      = v.toNat / 2 ^ (8 * n.val) % 2 ^ 8 ∧
    ∀ a, a < 4 * m.val ∨ 4 * m.val + 4 ≤ a →
      (s.writeTarget (target (0x1000 + 4 * m.val)) v).buf.read a = s.buf.read a

/-- A read returns the value of the latest earlier write to that word, and a host write to any offset but `CMD` changes
no other word of the window (R57, R59(a)). -/
def Obligations.ReadAfterHostWrite : Prop :=
  ∀ (s : State) (off off' : Nat) (v : BusWord) (rest : List Request),
    off < 0x2000 → off % 4 = 0 → off' < 0x2000 → off' % 4 = 0 → off ≠ 0x008 →
    s.port = .write off 4 v :: .read off' 4 :: rest →
    ∃ t u w, step s = .next t ∧ step t = .next u ∧ u.replies = s.replies ++ [w] ∧
      (off' = off → ¬ reservedOffset off → ¬ readOnlyOffset off → w = v) ∧
      (off' ≠ off ∨ reservedOffset off ∨ readOnlyOffset off → w = s.readTarget (target off'))

/-- R55: a read of a reserved offset or of `CMD` returns 0, and a write to a reserved offset or to a read-only register is
ignored; neither changes anything else. -/
def Obligations.ReservedAndReadOnlyOffsets : Prop :=
  ∀ (s : State) (off : Nat) (v : BusWord) (rest : List Request), off < 0x2000 → off % 4 = 0 →
    ((reservedOffset off ∨ off = 0x008) → s.port = .read off 4 :: rest →
      step s = .next { s with port := rest, replies := s.replies ++ [0] }) ∧
    ((reservedOffset off ∨ readOnlyOffset off) → s.port = .write off 4 v :: rest →
      step s = .next { s with port := rest })

/-- R30: `ID` and `CFG` read as their constants, and writes to them are ignored. -/
def Obligations.IdentityAndConfiguration : Prop :=
  ∀ (s : State) (v : BusWord),
    s.readTarget (target 0x000) = 0x424E0100#32 ∧
    (s.params.wordBits = .w64 → s.readTarget (target 0x004) = 0x000C0440#32) ∧
    (s.params.wordBits = .w32 → s.readTarget (target 0x004) = 0x000C0820#32) ∧
    s.writeTarget (target 0x000) v = s ∧ s.writeTarget (target 0x004) v = s

/-- Inside the window an access that is misaligned or not four bytes wide is refused as ill-formed (R52); outside it the
model faults (the model's choice, log 9). -/
def Obligations.IllFormedAccessesStop : Prop :=
  ∀ (s : State) (off size : Nat) (v : BusWord) (rest : List Request),
    (s.port = .read off size :: rest ∨ s.port = .write off size v :: rest) →
    (0x2000 ≤ off → step s = .fault (.outsideWindow off)) ∧
    (off < 0x2000 → (off % 4 ≠ 0 ∨ size ≠ 4) → step s = .refused (.illFormedAccess off size))

/-- The reset input leaves `STATUS` and `BLEN` zero and the constants as configured (R38, R180); that it leaves the host's
own transactions and replies alone is the model's choice (log 10). -/
def Obligations.ResetInputClearsStatus : Prop :=
  ∀ (s : State) (rest : List Request), s.port = .reset :: rest →
    ∃ t, step s = .next t ∧ t.status = 0 ∧ t.blen = 0 ∧ t.params = s.params ∧ t.port = rest ∧ t.replies = s.replies

/-! ### The whole machine -/

/-- Every step keeps the state legal: `STATUS` reads 0, 1, 2, 3 or 0x104, so codes 5 to 15 and reserved bits never appear
and `FAULT` goes with code 4 (R29, R168), and the buffer stays in the model's canonical form (log 11). -/
def Obligations.StepKeepsTheStateLegal : Prop :=
  ∀ s t : State, s.legal → step s = .next t → t.legal

/-- The state right after reset has `STATUS = 0` and `BLEN = 0` (R38), and it is legal. -/
def Obligations.ResetStateIsLegal : Prop :=
  State.reset.status = 0 ∧ State.reset.blen = 0 ∧ State.reset.legal

/-- No command, host access or reset changes a configuration constant (R21). -/
def Obligations.ConstantsNeverChange : Prop :=
  ∀ s t : State, step s = .next t → t.params = s.params

/-- A command writes only the registers its rule names, and `STATUS` (R36; the table of registers is `Instr.writes`). -/
def Obligations.CommandWritesOnlyItsRegisters : Prop :=
  ∀ (i : Instr) (s t : State), exec i s = .next t → s.keepsBut t (fun r => i.writes r = true)

/-- R167: a command or an illegal word that does not end `OK` has written nothing but `STATUS`. -/
def Obligations.FailedCommandWritesOnlyStatus : Prop :=
  (∀ (i : Instr) (s t : State), exec i s = .next t → t.code ≠ Code.ok.num → t = { s with status := t.status }) ∧
  (∀ (c : BusWord) (s t : State), runWord c s = .next t → t.code ≠ Code.ok.num → t = { s with status := t.status })

/-- R161: a command's outcome and writes are a function of the command, the registers it reads, the constants and
`STATUS.FAULT`; with `FAULT` set it has neither. -/
def Obligations.OutcomeDependsOnlyOnWhatIsRead : Prop :=
  ∀ (i : Instr) (s s' t t' : State), s.params = s'.params → s.faulted = s'.faulted →
    (∀ r, i.reads r = true → s.same s' r) → exec i s = .next t → exec i s' = .next t' →
    (s.faulted = true → t = s ∧ t' = s') ∧
    (s.faulted = false → t.code = t'.code ∧ t.faulted = t'.faulted ∧
      (t.code = Code.ok.num → ∀ r, i.writes r = true → t.same t' r))

/-- R169: the next executed command or illegal word overwrites the code, and what it does does not depend on the code
it found. -/
def Obligations.EarlierOutcomeIsForgotten : Prop :=
  ∀ (i : Instr) (w : BusWord) (s : State) (c : Code), s.faulted = false →
    exec i (s.setCode c) = exec i s ∧ runWord w (s.setCode c) = runWord w s

/-- `ORDER` and `WORD_BITS` change no result of any command (R6, R91). -/
def Obligations.OrderAndWordSizeChangeNoResult : Prop :=
  ∀ (i : Instr) (s t : State) (p : Params), p.V = s.params.V → p.P = s.params.P → exec i s = .next t →
    exec i { s with params := p } = .next { t with params := p }

/-- R166: the outcome is that of the first check that applies: fault state, illegal command, length or width, digits; and
a command that passes them all ends `OK`. The clause for an ill-formed term (`QDIL` or `QDEC` with equal destinations,
which no word decodes to) is the model's choice, DEDUCED (log 14); R166 speaks of words. -/
def Obligations.OutcomeIsTheFirstFailingCheck : Prop :=
  ∀ (i : Instr) (s : State), ∃ t, exec i s = .next t ∧
    (s.faulted = true → t = s) ∧
    (s.faulted = false →
      (∀ c e, decode c = .error e → ∃ u, runWord c s = .next u ∧ s.reports u .illegalCommand) ∧
      (i.wellFormed = false → s.reports t .illegalCommand) ∧
      (i.wellFormed = true → i.lengthFails s → s.reports t .lengthMismatch) ∧
      (i.wellFormed = true → ¬ i.lengthFails s → i.widthFails s → s.reports t .encodingOverflow) ∧
      (i.wellFormed = true → ¬ i.lengthFails s → ¬ i.widthFails s → i.digitsFail s → s.reportsFault t) ∧
      (i.wellFormed = true → ¬ i.lengthFails s → ¬ i.widthFails s → ¬ i.digitsFail s → s.reports t .ok))

/-- R164: where a command that passes its other checks would encode an unrepresentable integer or decode a digit out of
range, `CODE` becomes 4 and `FAULT` 1, with no other write. -/
def Obligations.ContractViolationTakesTheFault : Prop :=
  ∀ (i : Instr) (s : State), s.faulted = false → i.wellFormed = true → ¬ i.lengthFails s → i.digitsFail s →
    ∃ t, exec i s = .next t ∧ s.reportsFault t ∧ s.keepsBut t (fun _ => False)

/-- A transaction the port can express is always served: the step answers a next state (R52, R59; "each command
terminates", R192). That a step is also taken with no transaction left (R178 only says the unit keeps all state) is the
model's choice (log 6), and so is the reset input as one transaction (R180; log 10). -/
def Obligations.ExpressibleRequestsAreServed : Prop :=
  ∀ s : State, (∀ r rest, s.port = r :: rest → r.expressible) → ∃ t, step s = .next t

/-! ### System and scalar commands -/

/-- R150: `NOP` is the word 0, sets `CODE` to 0 and changes nothing else; in the fault state it is not executed. -/
def Obligations.NopOnlyClearsTheCode : Prop :=
  decode 0x00000000#32 = .ok .nop ∧ ∀ s : State,
    (s.faulted = false → ∃ t, exec .nop s = .next t ∧ s.reports t .ok ∧ s.keepsBut t (fun _ => False)) ∧
    (s.faulted = true → exec .nop s = .next s)

/-- `SENC Sd, Is` on an integer below 2^256: engine word `j` is bits [64j+63:64j] of it, `CODE` is 0, and nothing else
changes (R90). -/
def Obligations.SencStoresTheInteger : Prop :=
  ∀ (s : State) (d : SReg) (r : IReg), s.faulted = false → (s.getI r).toNat < 2 ^ 256 →
    ∃ t, exec (.senc d r) s = .next t ∧ s.reports t .ok ∧
      (∀ j : Fin 4, (t.getS d)[j].toNat = (s.getI r).toNat / 2 ^ (64 * j.val) % 2 ^ 64) ∧
      s.keepsBut t (fun x => x = .scalar d)

/-- R163: `SENC` of an integer of 2^256 or more sets `CODE` to 2 and changes nothing else. -/
def Obligations.SencOverflowSignals : Prop :=
  ∀ (s : State) (d : SReg) (r : IReg), s.faulted = false → 2 ^ 256 ≤ (s.getI r).toNat →
    ∃ t, exec (.senc d r) s = .next t ∧ s.reports t .encodingOverflow ∧ s.keepsBut t (fun _ => False)

/-- `SDEC Id, Ss`: the integer register holds the little-endian sum of the engine words, its upper bits 0 (R92). -/
def Obligations.SdecGivesTheSum : Prop :=
  ∀ (s : State) (d : IReg) (r : SReg), s.faulted = false →
    ∃ t, exec (.sdec d r) s = .next t ∧ s.reports t .ok ∧
      (t.getI d).toNat = ∑ j : Fin 4, (s.getS r)[j].toNat * 2 ^ (64 * j.val) ∧
      s.keepsBut t (fun x => x = .int d)

/-- R93: SENC then SDEC gives the integer back, for every integer below 2^256, and SDEC then SENC gives the scalar
register's content back, whatever it is. -/
def Obligations.ScalarRoundTrip : Prop :=
  (∀ (s : State) (d : SReg) (r e : IReg), s.faulted = false → (s.getI r).toNat < 2 ^ 256 →
    ∃ t u, exec (.senc d r) s = .next t ∧ exec (.sdec e d) t = .next u ∧ (u.getI e).toNat = (s.getI r).toNat) ∧
  (∀ (s : State) (e : IReg) (r d : SReg), s.faulted = false →
    ∃ t u, exec (.sdec e r) s = .next t ∧ exec (.senc d e) t = .next u ∧ u.code = Code.ok.num ∧ u.getS d = s.getS r)

/-! ### The base-field codec -/

/-- `FENC Fd, Is` where digit 11 is representable, as it is for every reduced integer: the digits of the division, `CODE`
0, and nothing else changes (R101, R102). -/
def Obligations.FencWritesTheDigits : Prop :=
  ∀ (s : State) (d : FReg) (r : IReg), s.faulted = false →
    ((s.getI r).toNat < s.params.P → representable s.params (s.getI r).toNat) ∧
    (representable s.params (s.getI r).toNat →
      ∃ t, exec (.fenc d r) s = .next t ∧ s.reports t .ok ∧
        holdsDigits s.params.V (s.getI r).toNat (t.getF d) ∧ s.keepsBut t (fun x => x = .field d))

/-- `FDEC Id, Fs` where every digit is in range: the weighted sum reduced to `[0, P)`, `CODE` 0, and nothing else changes
(R103, R104). -/
def Obligations.FdecGivesTheReducedSum : Prop :=
  ∀ (s : State) (d : IReg) (r : FReg), s.faulted = false → ranged (fieldDigits (s.getF r)) →
    ∃ t, exec (.fdec d r) s = .next t ∧ s.reports t .ok ∧
      (t.getI d).toNat = valueOf s.params (fieldDigits (s.getF r)) ∧ s.keepsBut t (fun x => x = .int d)

/-- R105: a reduced integer encodes to the digits of the division and no others, and decodes back to itself; those are
the only digits in the ranges of the division with that weighted sum; and some vector in range decodes to an integer
whose encoding is another vector. -/
def Obligations.BaseFieldRoundTrip : Prop :=
  ∀ p : Params,
    (∀ x, x < p.P → ∃ D, fenc p x = some D ∧ fdec p D = some x ∧ (∀ k : Fin 12, D[k] = (digitOf p.V x k : Int)) ∧
      ∀ D' : DigitVec, (∀ k : Fin 12, k < 11 → 0 ≤ D'[k] ∧ D'[k] < (if k = 0 ∨ k = 6 then 6 * p.V else p.V : Nat)) →
        (∑ k : Fin 12, D'[k] * (weight p.V k.val : Int)) = x → D' = D) ∧
    (∃ (D : DigitVec) (x : Nat), fdec p D = some x ∧ fenc p x ≠ some D)

/-- R106: the ranges of the digits of a reduced integer's encoding, inside `DIGIT_MAX`; with the default parameters the
last bound is `V`. -/
def Obligations.CanonicalDigitRanges : Prop :=
  (∀ (p : Params) (x : Nat) (D : DigitVec), x < p.P → fenc p x = some D →
    (∀ k : Fin 12, k < 11 → 0 ≤ D[k] ∧ D[k] < (if k = 0 ∨ k = 6 then 6 * p.V else p.V : Nat)) ∧
    0 ≤ D[11] ∧ D[11] ≤ ((p.P - 1) / (36 * p.V ^ 11) : Nat) ∧ inRange D = true) ∧
  (Params.default.P - 1) / (36 * Params.default.V ^ 11) = Params.default.V

/-- An unreduced integer is encoded by the same division, fails only on digit 11, and where it does not fail decodes to
its remainder mod `P` and is not the canonical vector of its value (R107). -/
def Obligations.UnreducedIntegerIsEncoded : Prop :=
  ∀ (p : Params) (x : Nat),
    ((fenc p x = none) ↔ digitMax < x / (36 * p.V ^ 11)) ∧
    ∀ D, fenc p x = some D →
      fdec p D = some (x % p.P) ∧
      (∀ k : Fin 12, k < 11 → 0 ≤ D[k] ∧ D[k] < (if k = 0 ∨ k = 6 then 6 * p.V else p.V : Nat)) ∧
      (p.P ≤ x → fenc p (x % p.P) ≠ some D)

/-! ### The quadratic-extension codec -/

/-- R110: where the layout functions put each slot, and that they undo each other. -/
def Obligations.LayoutFunctionsAreInverse : Prop :=
  ∀ (A B : DigitVec) (T : Vector Int 24),
    (∀ k : Fin 12, (ilv A B)[2 * k.val] = B[k] ∧ (ilv A B)[2 * k.val + 1] = A[k] ∧
      (dilA T)[k] = T[2 * k.val + 1] ∧ (dilB T)[k] = T[2 * k.val]) ∧
    dilA (ilv A B) = A ∧ dilB (ilv A B) = B ∧ ilv (dilA T) (dilB T) = T

/-- `QILV Qd, Fa, Fb`: b's patterns in the even and a's in the odd slots, unchecked; `CODE` 0, nothing else changes
(R111). -/
def Obligations.QilvInterleaves : Prop :=
  ∀ (s : State) (d : QReg) (a b : FReg), s.faulted = false →
    ∃ t, exec (.qilv d a b) s = .next t ∧ s.reports t .ok ∧
      (∀ k : Fin 12, (t.getQ d)[2 * k.val] = (s.getF b)[k] ∧ (t.getQ d)[2 * k.val + 1] = (s.getF a)[k]) ∧
      s.keepsBut t (fun x => x = .quad d)

/-- `QDIL Fa, Fb, Qs` with two destinations: the odd slots to a, the even to b, unchecked; `CODE` 0, nothing else changes
(R112). -/
def Obligations.QdilDeinterleaves : Prop :=
  ∀ (s : State) (a b : FReg) (r : QReg), s.faulted = false → a ≠ b →
    ∃ t, exec (.qdil a b r) s = .next t ∧ s.reports t .ok ∧
      (∀ k : Fin 12, (t.getF a)[k] = (s.getQ r)[2 * k.val + 1] ∧ (t.getF b)[k] = (s.getQ r)[2 * k.val]) ∧
      s.keepsBut t (fun x => x = .field a ∨ x = .field b)

/-- `QENC Qd, Ia, Ib` where both integers are representable: the digits of a in the odd and of b in the even slots,
`CODE` 0, nothing else changes (R113). -/
def Obligations.QencEncodesBoth : Prop :=
  ∀ (s : State) (d : QReg) (a b : IReg), s.faulted = false →
    representable s.params (s.getI a).toNat → representable s.params (s.getI b).toNat →
    ∃ t, exec (.qenc d a b) s = .next t ∧ s.reports t .ok ∧
      holdsPair s.params.V (s.getI a).toNat (s.getI b).toNat (t.getQ d) ∧ s.keepsBut t (fun x => x = .quad d)

/-- `QDEC Ia, Ib, Qs` with two destinations and all 24 slots in range: the values of both halves, `CODE` 0, nothing else
changes (R114). -/
def Obligations.QdecDecodesBoth : Prop :=
  ∀ (s : State) (a b : IReg) (r : QReg), s.faulted = false → a ≠ b →
    ranged (digitsA (s.getQ r)) → ranged (digitsB (s.getQ r)) →
    ∃ t, exec (.qdec a b r) s = .next t ∧ s.reports t .ok ∧
      (t.getI a).toNat = valueOf s.params (digitsA (s.getQ r)) ∧
      (t.getI b).toNat = valueOf s.params (digitsB (s.getQ r)) ∧
      s.keepsBut t (fun x => x = .int a ∨ x = .int b)

/-- R115: QENC then QDEC returns both integers, for reduced integers. -/
def Obligations.QuadraticRoundTrip : Prop :=
  ∀ (s : State) (d : QReg) (a b e f : IReg), s.faulted = false → e ≠ f →
    (s.getI a).toNat < s.params.P → (s.getI b).toNat < s.params.P →
    ∃ t u, exec (.qenc d a b) s = .next t ∧ exec (.qdec e f d) t = .next u ∧ u.code = Code.ok.num ∧
      (u.getI e).toNat = (s.getI a).toNat ∧ (u.getI f).toNat = (s.getI b).toNat

/-- `QDIL` or `QDEC` with one register as both destinations is the illegal command: its word does not decode (R76), and
the model's meaning of such a term signals IllegalCommand (log 14). -/
def Obligations.SameDestinationIsIllegal : Prop :=
  ∀ (x : FReg) (y : IReg) (r : QReg),
    (∃ e, decode (encode (.qdil x x r)) = .error e) ∧ (∃ e, decode (encode (.qdec y y r)) = .error e) ∧
    ∀ s : State, s.faulted = false →
      ∃ t u, exec (.qdil x x r) s = .next t ∧ exec (.qdec y y r) s = .next u ∧
        s.reports t .illegalCommand ∧ s.reports u .illegalCommand ∧
        s.keepsBut t (fun _ => False) ∧ s.keepsBut u (fun _ => False)

/-! ### The byte serializer -/

/-- R120: the byte functions, place by place, and that they undo each other. -/
def Obligations.ByteFunctionsAreInverse : Prop :=
  (∀ x, x < 2 ^ 256 → (be32 x).length = 32 ∧
    (∀ n (h : n < (be32 x).length), ((be32 x)[n]).toNat = x / 2 ^ (8 * (31 - n)) % 2 ^ 8) ∧ beUint (be32 x) = x) ∧
  (∀ bs : List Byte, bs.length = 32 → beUint bs < 2 ^ 256 ∧
    beUint bs = ∑ n : Fin bs.length, bs[n].toNat * 256 ^ (31 - n.val) ∧ be32 (beUint bs) = bs)

/-- `FTOB Fs, K` where every digit is in range: element `K` is the big-endian form of the value; `CODE` 0, the other 352
bytes, `BLEN` and everything else unchanged (R121). -/
def Obligations.FtobWritesTheElement : Prop :=
  ∀ (s : State) (r : FReg) (k : Elem), s.faulted = false → ranged (fieldDigits (s.getF r)) →
    ∃ t, exec (.ftob r k) s = .next t ∧ s.reports t .ok ∧
      t.elemIs k.val (valueOf s.params (fieldDigits (s.getF r))) ∧
      s.keepsBut t (fun x => ∃ n, n < 32 ∧ x = .byte (32 * k.val + n))

/-- `BTOF Fd, K` where the element's integer is representable: its digits, whatever `BLEN` is; `CODE` 0, nothing else
changes (R122). -/
def Obligations.BtofReadsTheElement : Prop :=
  ∀ (s : State) (d : FReg) (k : Elem), s.faulted = false → representable s.params (s.elemValue k.val) →
    ∃ t, exec (.btof d k) s = .next t ∧ s.reports t .ok ∧
      holdsDigits s.params.V (s.elemValue k.val) (t.getF d) ∧ s.keepsBut t (fun x => x = .field d)

/-- R123: (a) BTOF then FTOB returns the element when its integer is below `P`; (b) else, without a fault, it returns the
element of the integer mod `P`, another one; (c) FTOB then BTOF returns the canonical vector of the value. -/
def Obligations.ByteRoundTrips : Prop :=
  ∀ (s : State) (d : FReg) (k : Elem), s.faulted = false →
    (s.elemValue k.val < s.params.P →
      ∃ t u, exec (.btof d k) s = .next t ∧ exec (.ftob d k) t = .next u ∧ u.code = Code.ok.num ∧
        ∀ a, u.buf.read a = s.buf.read a) ∧
    (s.params.P ≤ s.elemValue k.val → representable s.params (s.elemValue k.val) →
      ∃ t u, exec (.btof d k) s = .next t ∧ exec (.ftob d k) t = .next u ∧ u.code = Code.ok.num ∧
        u.elemIs k.val (s.elemValue k.val % s.params.P) ∧
        ∃ n, n < 32 ∧ u.buf.read (32 * k.val + n) ≠ s.buf.read (32 * k.val + n)) ∧
    (ranged (fieldDigits (s.getF d)) → ∀ e : FReg,
      ∃ t u, exec (.ftob d k) s = .next t ∧ exec (.btof e k) t = .next u ∧ u.code = Code.ok.num ∧
        holdsDigits s.params.V (valueOf s.params (fieldDigits (s.getF d))) (u.getF e))

/-! ### The point codec -/

/-- `MG1` where all 24 digits read are in range: x and y big-endian, `BLEN` 64, `CODE` 0, nothing else changes (R132). -/
def Obligations.Mg1WritesThePoint : Prop :=
  ∀ s : State, s.faulted = false → ranged (fieldDigits (s.getF 0)) → ranged (fieldDigits (s.getF 1)) →
    ∃ t, exec .mg1 s = .next t ∧ s.reports t .ok ∧
      t.elemIs 0 (valueOf s.params (fieldDigits (s.getF 0))) ∧ t.elemIs 1 (valueOf s.params (fieldDigits (s.getF 1))) ∧
      t.blen = 64 ∧ s.keepsBut t (fun x => x = .blen ∨ ∃ n, n < 64 ∧ x = .byte n)

/-- `MG2` where all 48 slots read are in range: x.a, x.b, y.a, y.b big-endian, `BLEN` 128, `CODE` 0, nothing else changes
(R134). -/
def Obligations.Mg2WritesThePoint : Prop :=
  ∀ s : State, s.faulted = false →
    (∀ j : QReg, j.val < 2 → ranged (digitsA (s.getQ j)) ∧ ranged (digitsB (s.getQ j))) →
    ∃ t, exec .mg2 s = .next t ∧ s.reports t .ok ∧
      (∀ j : QReg, j.val < 2 → t.elemIs (2 * j.val) (valueOf s.params (digitsA (s.getQ j))) ∧
        t.elemIs (2 * j.val + 1) (valueOf s.params (digitsB (s.getQ j)))) ∧
      t.blen = 128 ∧ s.keepsBut t (fun x => x = .blen ∨ ∃ n, n < 128 ∧ x = .byte n)

/-- `MGT` where all 144 slots are in range: the six slots in order, element a before element b (the spec's decision D19,
log 15), `BLEN` 384, `CODE` 0, nothing else changes (R136). -/
def Obligations.MgtWritesTheElement : Prop :=
  ∀ s : State, s.faulted = false → (∀ j : QReg, ranged (digitsA (s.getQ j)) ∧ ranged (digitsB (s.getQ j))) →
    ∃ t, exec .mgt s = .next t ∧ s.reports t .ok ∧
      (∀ j : QReg, t.elemIs (2 * j.val) (valueOf s.params (digitsA (s.getQ j))) ∧
        t.elemIs (2 * j.val + 1) (valueOf s.params (digitsB (s.getQ j)))) ∧
      t.blen = 384 ∧ s.keepsBut t (fun x => x = .blen ∨ ∃ n, n < 384 ∧ x = .byte n)

/-- `UG1` on 64 bytes whose two integers are representable: their digits in `F0` and `F1`, the markers one and zero in
`F2` and `F3`, `CODE` 0, nothing else changes (R133, R139). -/
def Obligations.Ug1ReadsThePoint : Prop :=
  ∀ s : State, s.faulted = false → s.blen = 64 →
    representable s.params (s.elemValue 0) → representable s.params (s.elemValue 1) →
    ∃ t, exec .ug1 s = .next t ∧ s.reports t .ok ∧
      holdsDigits s.params.V (s.elemValue 0) (t.getF 0) ∧ holdsDigits s.params.V (s.elemValue 1) (t.getF 1) ∧
      holdsDigits s.params.V 1 (t.getF 2) ∧ holdsDigits s.params.V 0 (t.getF 3) ∧
      s.keepsBut t (fun x => ∃ i, x = .field i)

/-- `UG2` on 128 bytes whose four integers are representable: x in `Q0`, y in `Q1`, the markers one and zero in `Q2` and
`Q3`, `CODE` 0, nothing else changes (R135, R139). -/
def Obligations.Ug2ReadsThePoint : Prop :=
  ∀ s : State, s.faulted = false → s.blen = 128 → (∀ n, n < 4 → representable s.params (s.elemValue n)) →
    ∃ t, exec .ug2 s = .next t ∧ s.reports t .ok ∧
      holdsPair s.params.V (s.elemValue 0) (s.elemValue 1) (t.getQ 0) ∧
      holdsPair s.params.V (s.elemValue 2) (s.elemValue 3) (t.getQ 1) ∧
      holdsPair s.params.V 1 0 (t.getQ 2) ∧ holdsPair s.params.V 0 0 (t.getQ 3) ∧
      s.keepsBut t (fun x => ∃ i : QReg, i.val < 4 ∧ x = .quad i)

/-- `UGT` on 384 bytes whose twelve integers are representable: slot `j` from elements `2j` (a) and `2j+1` (b; the spec's
decision D19, log 15), `CODE` 0, nothing else changes (R137). -/
def Obligations.UgtReadsTheElement : Prop :=
  ∀ s : State, s.faulted = false → s.blen = 384 → (∀ n, n < 12 → representable s.params (s.elemValue n)) →
    ∃ t, exec .ugt s = .next t ∧ s.reports t .ok ∧
      (∀ j : QReg, holdsPair s.params.V (s.elemValue (2 * j.val)) (s.elemValue (2 * j.val + 1)) (t.getQ j)) ∧
      s.keepsBut t (fun x => ∃ i, x = .quad i)

/-- R162: an unmarshal command that finds `BLEN` different from its one accepted length sets `CODE` to 1, never faults,
and changes nothing else, whatever the buffer holds. -/
def Obligations.WrongLengthSignals : Prop :=
  ∀ (s : State) (i : Instr) (n : BusWord),
    ((i = .ug1 ∧ n = 64) ∨ (i = .ug2 ∧ n = 128) ∨ (i = .ugt ∧ n = 384)) → s.faulted = false → s.blen ≠ n →
    ∃ t, exec i s = .next t ∧ s.reports t .lengthMismatch ∧ s.keepsBut t (fun _ => False)

/-- Marshal, unmarshal, marshal leaves the bytes and the length of the first marshal, for G1, G2 and GT, and every one of
the three commands ends `OK` (R138). -/
def Obligations.MarshalIsIdempotent : Prop :=
  ∀ (s t : State) (m u : Instr),
    ((m = .mg1 ∧ u = .ug1) ∨ (m = .mg2 ∧ u = .ug2) ∨ (m = .mgt ∧ u = .ugt)) →
    s.faulted = false → exec m s = .next t → t.code = Code.ok.num →
    ∃ v w, exec u t = .next v ∧ v.code = Code.ok.num ∧ exec m v = .next w ∧ w.code = Code.ok.num ∧
      w.blen = t.blen ∧ ∀ a, w.buf.read a = t.buf.read a
end

