-- ==== Sys2Proof/Laws/Memory.lean ====
section
/-! SUPPORT. The byte buffer: a read after a write, and that every operation keeps the canonical form (log 11). -/

namespace Sys2Proof.Machine

theorem Memory.read_filter_ne (m : Memory) (a b : Nat) :
    Memory.read (m.filter (fun c => decide (c.1 ≠ a))) b = if b = a then 0 else m.read b := by
  induction m with
  | nil => simp [Memory.read]
  | cons c m ih =>
    obtain ⟨x, v⟩ := c
    by_cases hx : x = a
    · subst hx
      simp only [ne_eq, not_true_eq_false, decide_false, Bool.false_eq_true, not_false_eq_true,
        List.filter_cons_of_neg, Memory.read]
      rw [ih]
      by_cases hb : b = x
      · simp [hb]
      · simp [hb, Ne.symm hb]
    · have : decide ((x, v).1 ≠ a) = true := by simpa using hx
      rw [List.filter_cons_of_pos (by simpa using hx)]
      simp only [Memory.read]
      rw [ih]
      by_cases hxb : x = b
      · subst hxb; simp [hx]
      · simp [hxb]

theorem Memory.read_insert (m : Memory) (a b : Nat) (v : Byte) (h : b = a → m.read a = 0 ∧ ∀ c ∈ m, c.1 ≠ a) :
    Memory.read (Memory.insert a v m) b = if b = a then v else m.read b := by
  induction m with
  | nil => simp [Memory.insert, Memory.read, eq_comm]
  | cons c m ih =>
    obtain ⟨x, w⟩ := c
    simp only [Memory.insert]
    split
    · simp only [Memory.read]
      by_cases hb : b = a
      · simp [hb]
      · simp [hb, Ne.symm hb]
    · simp only [Memory.read]
      by_cases hxb : x = b
      · subst hxb
        have hxa : x ≠ a := fun e => (h e).2 (x, w) (by simp) e
        simp [hxa]
      · rw [if_neg hxb, if_neg hxb]
        refine ih fun e => ?_
        have h' := h e
        have hxa : x ≠ a := h'.2 (x, w) (by simp)
        refine ⟨by simpa [Memory.read, hxa] using h'.1, fun c hc => h'.2 c (by simp [hc])⟩

/-- A read after a write of one byte: the byte written there, and every other byte as before. -/
theorem Memory.read_write (m : Memory) (a b : Nat) (v : Byte) :
    (m.write a v).read b = if b = a then v else m.read b := by
  unfold Memory.write
  split
  · next h => rw [Memory.read_filter_ne, h]
  · rw [Memory.read_insert, Memory.read_filter_ne]
    · by_cases hb : b = a <;> simp [hb]
    · intro _
      refine ⟨by rw [Memory.read_filter_ne]; simp, fun c hc => ?_⟩
      simpa using (List.mem_filter.mp hc).2

/-- A read after a write of consecutive bytes. -/
theorem Memory.read_writeBytes (m : Memory) (a b : Nat) (bs : List Byte) :
    (m.writeBytes a bs).read b = if h : a ≤ b ∧ b < a + bs.length then bs[b - a] else m.read b := by
  induction bs generalizing m a with
  | nil => simp [Memory.writeBytes]
  | cons v bs ih =>
    rw [Memory.writeBytes, ih]
    by_cases h1 : a + 1 ≤ b ∧ b < a + 1 + bs.length
    · have h2 : a ≤ b ∧ b < a + (v :: bs).length := by simp; omega
      rw [dif_pos h1, dif_pos h2]
      have : b - a = (b - (a + 1)) + 1 := by omega
      simp [this]
    · rw [dif_neg h1, Memory.read_write]
      by_cases hb : b = a
      · subst hb; simp
      · have h2 : ¬ (a ≤ b ∧ b < a + (v :: bs).length) := by simp; omega
        rw [dif_neg h2, if_neg hb]

theorem be32_length (x : Nat) : (be32 x).length = 32 := by simp [be32]

theorem be32_getElem (x n : Nat) (h : n < (be32 x).length) :
    (be32 x)[n] = BitVec.ofNat 8 (x / 2 ^ (8 * (31 - n))) := by simp [be32]

theorem Memory.writeElems_cons (m : Memory) (a x : Nat) (xs : List Nat) :
    m.writeElems a (x :: xs) = (m.writeBytes a (be32 x)).writeElems (a + 32) xs := rfl

/-- A read after a write of consecutive elements: byte `n` of the element it lies in, or what was there (R130). -/
theorem Memory.read_writeElems (m : Memory) (a b : Nat) (xs : List Nat) :
    (m.writeElems a xs).read b =
      if h : a ≤ b ∧ b < a + 32 * xs.length then
        BitVec.ofNat 8 (xs[(b - a) / 32]'(by omega) / 2 ^ (8 * (31 - (b - a) % 32)))
      else m.read b := by
  induction xs generalizing m a with
  | nil => simp [Memory.writeElems]
  | cons x xs ih =>
    rw [Memory.writeElems_cons, ih]
    simp only [List.length_cons]
    by_cases h1 : a + 32 ≤ b ∧ b < a + 32 + 32 * xs.length
    · have h2 : a ≤ b ∧ b < a + 32 * (xs.length + 1) := by omega
      rw [dif_pos h1, dif_pos h2]
      have e1 : (b - a) / 32 = (b - (a + 32)) / 32 + 1 := by omega
      have e2 : (b - a) % 32 = (b - (a + 32)) % 32 := by omega
      simp [e1, e2]
    · rw [dif_neg h1, Memory.read_writeBytes]
      by_cases h3 : a ≤ b ∧ b < a + 32
      · have h2 : a ≤ b ∧ b < a + 32 * (xs.length + 1) := by omega
        rw [dif_pos (by rw [be32_length]; exact h3), dif_pos h2, be32_getElem]
        have e1 : (b - a) / 32 = 0 := by omega
        have e2 : (b - a) % 32 = b - a := by omega
        simp [e1, e2]
      · have h2 : ¬ (a ≤ b ∧ b < a + 32 * (xs.length + 1)) := by omega
        rw [dif_neg (by rw [be32_length]; exact h3), dif_neg h2]

/-- The bytes read are the bytes at their places. -/
theorem Memory.readBytes_getElem (m : Memory) (a n j : Nat) (h : j < (m.readBytes a n).length) :
    (m.readBytes a n)[j] = m.read (a + j) := by simp [Memory.readBytes]

@[simp] theorem Memory.readBytes_length (m : Memory) (a n : Nat) : (m.readBytes a n).length = n := by
  simp [Memory.readBytes]

theorem Memory.readBytes_congr (m m' : Memory) (a n : Nat) (h : ∀ j, j < n → m.read (a + j) = m'.read (a + j)) :
    m.readBytes a n = m'.readBytes a n := by
  apply List.ext_getElem (by simp)
  intro j h1 _
  rw [Memory.readBytes_getElem, Memory.readBytes_getElem]
  exact h j (by simpa using h1)

theorem Memory.wfFrom_mono (m : Memory) {lo lo' : Nat} (hl : lo' ≤ lo) (h : Memory.wfFrom lo m = true) :
    Memory.wfFrom lo' m = true := by
  cases m with
  | nil => rfl
  | cons c m =>
    obtain ⟨a, v⟩ := c
    simp only [Memory.wfFrom, Bool.and_eq_true, decide_eq_true_eq] at h ⊢
    exact ⟨⟨⟨by omega, h.1.1.2⟩, h.1.2⟩, h.2⟩

theorem Memory.wfFrom_filter (m : Memory) (lo a : Nat) (h : Memory.wfFrom lo m = true) :
    Memory.wfFrom lo (m.filter (fun c => decide (c.1 ≠ a))) = true := by
  induction m generalizing lo with
  | nil => rfl
  | cons c m ih =>
    obtain ⟨x, v⟩ := c
    simp only [Memory.wfFrom, Bool.and_eq_true, decide_eq_true_eq] at h
    by_cases hx : x = a
    · rw [List.filter_cons_of_neg (by simpa using hx)]
      exact Memory.wfFrom_mono _ (by omega) (ih (x + 1) h.2)
    · rw [List.filter_cons_of_pos (by simpa using hx)]
      simp only [Memory.wfFrom, Bool.and_eq_true, decide_eq_true_eq]
      exact ⟨h.1, ih (x + 1) h.2⟩

theorem Memory.wfFrom_insert (m : Memory) (lo a : Nat) (v : Byte) (hv : v ≠ 0) (ha : a < bufBytes) (hlo : lo ≤ a)
    (hm : ∀ c ∈ m, c.1 ≠ a) (h : Memory.wfFrom lo m = true) : Memory.wfFrom lo (Memory.insert a v m) = true := by
  induction m generalizing lo with
  | nil =>
    simp only [Memory.insert, Memory.wfFrom, Bool.and_true, Bool.and_eq_true, decide_eq_true_eq]
    exact ⟨⟨hlo, ha⟩, hv⟩
  | cons c m ih =>
    obtain ⟨x, w⟩ := c
    have hx : x ≠ a := hm (x, w) (by simp)
    simp only [Memory.wfFrom, Bool.and_eq_true, decide_eq_true_eq] at h
    simp only [Memory.insert]
    split
    · simp only [Memory.wfFrom, Bool.and_eq_true, decide_eq_true_eq]
      exact ⟨⟨⟨hlo, ha⟩, hv⟩, ⟨⟨by omega, h.1.1.2⟩, h.1.2⟩, h.2⟩
    · simp only [Memory.wfFrom, Bool.and_eq_true, decide_eq_true_eq]
      exact ⟨h.1, ih (x + 1) (by omega) (fun c hc => hm c (by simp [hc])) h.2⟩

/-- A write of one byte inside the buffer keeps the canonical form. -/
theorem Memory.wf_write (m : Memory) (a : Nat) (v : Byte) (ha : a < bufBytes) (h : m.wf = true) :
    (m.write a v).wf = true := by
  unfold Memory.write Memory.wf at *
  split
  · exact Memory.wfFrom_filter _ _ _ h
  · next hv =>
    refine Memory.wfFrom_insert _ _ _ _ hv ha (by omega) (fun c hc => ?_) (Memory.wfFrom_filter _ _ _ h)
    simpa using (List.mem_filter.mp hc).2

/-- A write of consecutive bytes inside the buffer keeps the canonical form. -/
theorem Memory.wf_writeBytes (m : Memory) (a : Nat) (bs : List Byte) (ha : a + bs.length ≤ bufBytes)
    (h : m.wf = true) : (m.writeBytes a bs).wf = true := by
  induction bs generalizing m a with
  | nil => exact h
  | cons v bs ih =>
    rw [List.length_cons] at ha
    exact ih _ _ (by omega) (Memory.wf_write _ _ _ (by omega) h)

/-- A write of consecutive elements inside the buffer keeps the canonical form. -/
theorem Memory.wf_writeElems (m : Memory) (a : Nat) (xs : List Nat) (ha : a + 32 * xs.length ≤ bufBytes)
    (h : m.wf = true) : (m.writeElems a xs).wf = true := by
  induction xs generalizing m a with
  | nil => exact h
  | cons x xs ih =>
    rw [List.length_cons] at ha
    rw [Memory.writeElems_cons]
    exact ih _ _ (by omega) (Memory.wf_writeBytes _ _ _ (by rw [be32_length]; omega) h)

/-- The buffer after the reset input is in its canonical form. -/
theorem Memory.wf_drawn (n : Nat) : (Memory.drawn n).wf = true :=
  Memory.wf_writeBytes _ _ _ (by simp) rfl

theorem Memory.read_of_wfFrom (m : Memory) (lo b : Nat) (h : Memory.wfFrom lo m = true) (hb : b < lo) :
    m.read b = 0 := by
  induction m generalizing lo with
  | nil => rfl
  | cons c m ih =>
    obtain ⟨a, v⟩ := c
    simp only [Memory.wfFrom, Bool.and_eq_true, decide_eq_true_eq] at h
    rw [Memory.read, if_neg (by omega)]
    exact ih (a + 1) h.2 (by omega)

/-- Two buffers in canonical form that read the same are the same data. -/
theorem Memory.eq_of_read (m m' : Memory) (lo : Nat) (h : Memory.wfFrom lo m = true) (h' : Memory.wfFrom lo m' = true)
    (e : ∀ b, m.read b = m'.read b) : m = m' := by
  induction m generalizing m' lo with
  | nil =>
    cases m' with
    | nil => rfl
    | cons c m' =>
      obtain ⟨a, v⟩ := c
      simp only [Memory.wfFrom, Bool.and_eq_true, decide_eq_true_eq] at h'
      exact absurd (by simpa [Memory.read] using (e a).symm) h'.1.2
  | cons c m ih =>
    obtain ⟨a, v⟩ := c
    simp only [Memory.wfFrom, Bool.and_eq_true, decide_eq_true_eq] at h
    cases m' with
    | nil => exact absurd (by simpa [Memory.read] using e a) h.1.2
    | cons c' m' =>
      obtain ⟨a', v'⟩ := c'
      simp only [Memory.wfFrom, Bool.and_eq_true, decide_eq_true_eq] at h'
      have haa : a = a' := by
        rcases lt_trichotomy a a' with hl | hl | hl
        · have := e a
          rw [Memory.read, if_pos rfl, Memory.read, if_neg (by omega), Memory.read_of_wfFrom _ _ _ h'.2 (by omega)] at this
          exact absurd this h.1.2
        · exact hl
        · have := e a'
          rw [Memory.read, if_neg (by omega), Memory.read_of_wfFrom _ _ _ h.2 (by omega), Memory.read, if_pos rfl] at this
          exact absurd this.symm h'.1.2
      subst haa
      have hvv : v = v' := by simpa [Memory.read] using e a
      subst hvv
      congr 1
      refine ih m' (a + 1) h.2 h'.2 fun b => ?_
      by_cases hb : b = a
      · subst hb
        rw [Memory.read_of_wfFrom _ _ _ h.2 (by omega), Memory.read_of_wfFrom _ _ _ h'.2 (by omega)]
      · simpa [Memory.read, Ne.symm hb] using e b

end Sys2Proof.Machine
end

