-- ==== Sys2Proof/Laws/Codec.lean ====
section
/-! SUPPORT. What each pure function of the codecs gives, said once: the digits of `fenc`, the value of `fdec`, the slots
of the interleaver, the value of an element of the buffer. -/

namespace Sys2Proof.Machine

theorem ilv_even {α : Type} (A B : Vector α 12) (k : Nat) (h : 2 * k < 24) : (ilv A B)[2 * k] = B[k] := by
  simp [ilv]

theorem ilv_odd {α : Type} (A B : Vector α 12) (k : Nat) (h : 2 * k + 1 < 24) : (ilv A B)[2 * k + 1] = A[k] := by
  have h2 : (2 * k + 1) / 2 = k := by omega
  simp [ilv, h2, Nat.add_mod]

@[simp] theorem dilA_getElem {α : Type} (T : Vector α 24) (k : Nat) (h : k < 12) :
    (dilA T)[k] = T[2 * k + 1] := by simp [dilA]

@[simp] theorem dilB_getElem {α : Type} (T : Vector α 24) (k : Nat) (h : k < 12) : (dilB T)[k] = T[2 * k] := by
  simp [dilB]

@[simp] theorem fieldDigits_dilA (T : QuadReg) : fieldDigits (dilA T) = digitsA T := by
  funext k; simp [fieldDigits, digitsA]

@[simp] theorem fieldDigits_dilB (T : QuadReg) : fieldDigits (dilB T) = digitsB T := by
  funext k; simp [fieldDigits, digitsB]

@[simp] theorem digitsA_ilv (A B : FieldReg) : digitsA (ilv A B) = fieldDigits A := by
  funext k; simp only [digitsA, fieldDigits]; rw [ilv_odd]; rfl

@[simp] theorem digitsB_ilv (A B : FieldReg) : digitsB (ilv A B) = fieldDigits B := by
  funext k; simp only [digitsB, fieldDigits]; rw [ilv_even]; rfl

/-- Each digit of the repeated division of R101 is one quotient and remainder of `x`. -/
theorem fencDigits_getElem (V x : Nat) (k : Fin 12) : (fencDigits V x)[k] = (digitOf V x k : Int) := by
  fin_cases k <;>
    simp [fencDigits, mixedRadix, radices, digitOf, Nat.div_div_eq_div_mul, pow_succ, Nat.mul_assoc, Nat.mul_comm,
      Nat.mul_left_comm]

/-- Every digit of the division but the last is below its divisor, at most `6V - 1` (R106). -/
theorem digitOf_lt (p : Params) (x : Nat) (k : Fin 12) (hk : k < 11) : digitOf p.V x k < 6 * p.V := by
  have hv := p.v_pos
  have h6 : 0 < 6 * p.V := by omega
  unfold digitOf
  split
  · exact Nat.mod_lt _ h6
  · split
    · exact lt_of_lt_of_le (Nat.mod_lt _ (by omega)) (by omega)
    · split
      · exact Nat.mod_lt _ h6
      · exact lt_of_lt_of_le (Nat.mod_lt _ (by omega)) (by omega : p.V ≤ 6 * p.V)

/-- Where digit 11 is representable every digit is at most `DIGIT_MAX`. -/
theorem digitOf_le (p : Params) (x : Nat) (k : Fin 12) (h : representable p x) : digitOf p.V x k ≤ digitMax := by
  by_cases hk : k < 11
  · have := digitOf_lt p x k hk
    have := p.v_digit
    omega
  · have : k = 11 := by omega
    subst this
    exact h

theorem toInt_ofInt64_of_le (d : Nat) (h : d ≤ digitMax) : (BitVec.ofInt 64 (d : Int)).toInt = d := by
  have hd : d ≤ 2 ^ 53 := h
  rw [BitVec.toInt_ofInt]
  exact Int.bmod_eq_of_le (by omega) (by omega)

/-- `fenc` in register form, where it does not fail: the digits of the division (R101, R102). -/
theorem fencReg_of_representable (p : Params) (x : Nat) (h : representable p x) :
    ∃ r, fencReg p x = some r ∧ holdsDigits p.V x r := by
  have h11 : ¬ (fencDigits p.V x)[11] > (digitMax : Int) := by
    have := fencDigits_getElem p.V x 11
    have h' : digitOf p.V x 11 ≤ digitMax := h
    simp only [Fin.getElem_fin] at this
    change (fencDigits p.V x)[11] = _ at this
    rw [this]
    omega
  refine ⟨storeDigits (fencDigits p.V x), by simp only [fencReg, fenc, if_neg h11, Option.map_some], fun k => ?_⟩
  have hk := fencDigits_getElem p.V x k
  simp only [Fin.getElem_fin] at hk
  simp only [fieldDigits, storeDigits, Fin.getElem_fin, Vector.getElem_map, hk]
  exact toInt_ofInt64_of_le _ (digitOf_le p x k h)

/-- `fenc` fails exactly where digit 11 exceeds `DIGIT_MAX` (R101, R107). -/
theorem fencReg_of_not_representable (p : Params) (x : Nat) (h : ¬ representable p x) : fencReg p x = none := by
  have h11 : (fencDigits p.V x)[11] > (digitMax : Int) := by
    have := fencDigits_getElem p.V x 11
    have h' : ¬ digitOf p.V x 11 ≤ digitMax := h
    simp only [Fin.getElem_fin] at this
    change (fencDigits p.V x)[11] = _ at this
    rw [this]
    omega
  simp only [fencReg, fenc, if_pos h11, Option.map_none]

/-- A reduced integer is representable (R9(c), R101). -/
theorem representable_of_lt (p : Params) (x : Nat) (h : x < p.P) : representable p x := by
  have hp := p.p_digit
  have hpos : 0 < 36 * p.V ^ 11 := Nat.mul_pos (by omega) (Nat.pow_pos p.v_pos)
  have hx : x / (36 * p.V ^ 11) < digitMax + 1 := by
    rw [Nat.div_lt_iff_lt_mul hpos]
    calc x < p.P := h
      _ ≤ (digitMax + 1) * 36 * p.V ^ 11 := hp
      _ = (digitMax + 1) * (36 * p.V ^ 11) := by ring
  exact Nat.lt_succ_iff.mp hx

theorem weightedSum_eq (V : Nat) (D : DigitVec) :
    weightedSum V 0 D.toList = ∑ k : Fin 12, D[k] * (weight V k : Int) := by
  have hD : D.toList = [D[0], D[1], D[2], D[3], D[4], D[5], D[6], D[7], D[8], D[9], D[10], D[11]] := by
    apply List.ext_getElem (by simp)
    intro n h1 h2
    have hn : n < 12 := by simpa using h1
    interval_cases n <;> simp
  rw [hD]
  simp only [weightedSum, Fin.sum_univ_succ, Fin.sum_univ_zero]
  rfl

/-- The value of a digit vector as its weighted sum (R25). -/
theorem valueOf_eq (p : Params) (d : Fin 12 → Int) :
    valueOf p d = ((∑ k : Fin 12, d k * (weight p.V k : Int)) % (p.P : Int)).toNat := by
  have h1 : (Finset.Icc (1 : Fin 12) 6) = {1, 2, 3, 4, 5, 6} := by decide
  have h2 : (Finset.Icc (7 : Fin 12) 11) = {7, 8, 9, 10, 11} := by decide
  have e : d 0 + (∑ k ∈ Finset.Icc (1 : Fin 12) 6, d k * (6 * (p.V : Int) ^ k.val))
      + ∑ k ∈ Finset.Icc (7 : Fin 12) 11, d k * (36 * (p.V : Int) ^ k.val)
      = ∑ k : Fin 12, d k * (weight p.V k : Int) := by
    rw [h1, h2]
    simp [Fin.sum_univ_succ, weight, Finset.sum_insert, Finset.sum_singleton]
    ring_nf
  rw [valueOf, e]

theorem fieldDigits_eq (r : FieldReg) (k : Fin 12) : (readDigits r)[k] = fieldDigits r k := by
  simp [readDigits, fieldDigits]

theorem inRange_iff (r : FieldReg) : inRange (readDigits r) = true ↔ ranged (fieldDigits r) := by
  simp only [inRange, List.all_eq_true, digitInRange, decide_eq_true_eq, ranged]
  constructor
  · intro h k
    refine h _ ?_
    have := fieldDigits_eq r k
    rw [← this]
    simp
  · intro h d hd
    obtain ⟨n, hn, rfl⟩ := List.getElem_of_mem hd
    have hn' : n < 12 := by simpa using hn
    have := fieldDigits_eq r ⟨n, hn'⟩
    simp only [Fin.getElem_fin] at this
    simpa [this] using h ⟨n, hn'⟩

/-- `fdec` of a register: its value where every digit is in range, else `out_of_range` (R103). -/
theorem fdecReg_eq (p : Params) (r : FieldReg) :
    (ranged (fieldDigits r) → fdecReg p r = some (valueOf p (fieldDigits r))) ∧
      (¬ ranged (fieldDigits r) → fdecReg p r = none) := by
  rw [← inRange_iff]
  constructor
  · intro h
    simp only [fdecReg, fdec, h, if_true]
    congr 1
    rw [valueOf_eq, fval, weightedSum_eq]
    simp only [fieldDigits_eq]
  · intro h
    simp [fdecReg, fdec, h]

/-- A value is in `[0, P)`, so it fits 32 bytes (R9(d), R103). -/
theorem valueOf_lt (p : Params) (d : Fin 12 → Int) : valueOf p d < p.P ∧ valueOf p d < 2 ^ 256 := by
  have hp : (0 : Int) < p.P := by have := p.p_two; omega
  have h1 := Int.emod_nonneg
    (d 0 + (∑ k ∈ Finset.Icc (1 : Fin 12) 6, d k * (6 * (p.V : Int) ^ k.val))
      + ∑ k ∈ Finset.Icc (7 : Fin 12) 11, d k * (36 * (p.V : Int) ^ k.val)) (ne_of_gt hp)
  have h2 := Int.emod_lt_of_pos
    (d 0 + (∑ k ∈ Finset.Icc (1 : Fin 12) 6, d k * (6 * (p.V : Int) ^ k.val))
      + ∑ k ∈ Finset.Icc (7 : Fin 12) 11, d k * (36 * (p.V : Int) ^ k.val)) hp
  have h3 : valueOf p d < p.P := by unfold valueOf; omega
  exact ⟨h3, lt_of_lt_of_le h3 p.p_bytes⟩

theorem beUint_append (bs : List Byte) (b : Byte) : beUint (bs ++ [b]) = beUint bs * 256 + b.toNat := by
  simp [beUint]

/-- The Horner form of `be_uint` is the sum of R120. -/
theorem beUint_readBytes (m : Memory) (a n : Nat) :
    beUint (m.readBytes a n) = ∑ j ∈ Finset.range n, (m.read (a + j)).toNat * 256 ^ (n - 1 - j) := by
  induction n with
  | zero => rfl
  | succ n ih =>
    have hr : m.readBytes a (n + 1) = m.readBytes a n ++ [m.read (a + n)] := by
      simp [Memory.readBytes, List.range_succ]
    rw [hr, beUint_append, ih, Finset.sum_range_succ, Finset.sum_mul]
    congr 1
    · refine Finset.sum_congr rfl fun j hj => ?_
      have hj' : j < n := Finset.mem_range.mp hj
      have : n + 1 - 1 - j = (n - 1 - j) + 1 := by omega
      rw [this, pow_succ]
      ring
    · simp

/-- The integer the machine reads from element `k` is the sum of R120. -/
theorem beUint_readElem (s : State) (k : Nat) : beUint (s.readElem k) = s.elemValue k := by
  rw [State.readElem, beUint_readBytes, State.elemValue]
  rfl

theorem fdecAll_cons (p : Params) (r : FieldReg) (rs : List FieldReg) :
    fdecAll p (r :: rs) = (fdecReg p r).bind fun x => (fdecAll p rs).map (x :: ·) := by
  rw [fdecAll]
  cases fdecReg p r <;> cases fdecAll p rs <;> rfl

/-- Decoding several registers: all values where all are in range, else `out_of_range` (R132, R134, R136). -/
theorem fdecAll_eq (p : Params) (rs : List FieldReg) :
    ((∀ r ∈ rs, ranged (fieldDigits r)) → fdecAll p rs = some (rs.map fun r => valueOf p (fieldDigits r))) ∧
      (¬ (∀ r ∈ rs, ranged (fieldDigits r)) → fdecAll p rs = none) := by
  induction rs with
  | nil => simp [fdecAll]
  | cons r rs ih =>
    rw [fdecAll_cons]
    by_cases hr : ranged (fieldDigits r)
    · rw [(fdecReg_eq p r).1 hr]
      by_cases hs : ∀ r ∈ rs, ranged (fieldDigits r)
      · rw [ih.1 hs]
        simpa [hr] using hs
      · rw [ih.2 hs]
        simp only [List.forall_mem_cons, hr, hs]
        simp
    · rw [(fdecReg_eq p r).2 hr]
      simp [hr]

end Sys2Proof.Machine
end

