-- ==== Sys2Proof/Laws/State.lean ====
section
/-! SUPPORT. One lemma per field of State per update of State, each true by rfl, and what the register reads give after
each register write, so that no proof unfolds a record update. -/

namespace Sys2Proof.Machine

variable (s : State)

@[simp] theorem State.setI_params (i : IReg) (v : Int512) : (s.setI i v).params = s.params := rfl
@[simp] theorem State.setI_ints (i : IReg) (v : Int512) : (s.setI i v).ints = s.ints.set i.val v := rfl
@[simp] theorem State.setI_scalars (i : IReg) (v : Int512) : (s.setI i v).scalars = s.scalars := rfl
@[simp] theorem State.setI_fields (i : IReg) (v : Int512) : (s.setI i v).fields = s.fields := rfl
@[simp] theorem State.setI_quads (i : IReg) (v : Int512) : (s.setI i v).quads = s.quads := rfl
@[simp] theorem State.setI_buf (i : IReg) (v : Int512) : (s.setI i v).buf = s.buf := rfl
@[simp] theorem State.setI_blen (i : IReg) (v : Int512) : (s.setI i v).blen = s.blen := rfl
@[simp] theorem State.setI_status (i : IReg) (v : Int512) : (s.setI i v).status = s.status := rfl
@[simp] theorem State.setI_port (i : IReg) (v : Int512) : (s.setI i v).port = s.port := rfl
@[simp] theorem State.setI_replies (i : IReg) (v : Int512) : (s.setI i v).replies = s.replies := rfl
@[simp] theorem State.setI_draws (i : IReg) (v : Int512) : (s.setI i v).draws = s.draws := rfl

@[simp] theorem State.setInt_params (i : IReg) (x : Nat) : (s.setInt i x).params = s.params := rfl
@[simp] theorem State.setInt_ints (i : IReg) (x : Nat) : (s.setInt i x).ints = s.ints.set i.val (BitVec.ofNat 512 x) := rfl
@[simp] theorem State.setInt_scalars (i : IReg) (x : Nat) : (s.setInt i x).scalars = s.scalars := rfl
@[simp] theorem State.setInt_fields (i : IReg) (x : Nat) : (s.setInt i x).fields = s.fields := rfl
@[simp] theorem State.setInt_quads (i : IReg) (x : Nat) : (s.setInt i x).quads = s.quads := rfl
@[simp] theorem State.setInt_buf (i : IReg) (x : Nat) : (s.setInt i x).buf = s.buf := rfl
@[simp] theorem State.setInt_blen (i : IReg) (x : Nat) : (s.setInt i x).blen = s.blen := rfl
@[simp] theorem State.setInt_status (i : IReg) (x : Nat) : (s.setInt i x).status = s.status := rfl
@[simp] theorem State.setInt_port (i : IReg) (x : Nat) : (s.setInt i x).port = s.port := rfl
@[simp] theorem State.setInt_replies (i : IReg) (x : Nat) : (s.setInt i x).replies = s.replies := rfl
@[simp] theorem State.setInt_draws (i : IReg) (x : Nat) : (s.setInt i x).draws = s.draws := rfl

@[simp] theorem State.setS_params (i : SReg) (v : ScalarReg) : (s.setS i v).params = s.params := rfl
@[simp] theorem State.setS_ints (i : SReg) (v : ScalarReg) : (s.setS i v).ints = s.ints := rfl
@[simp] theorem State.setS_scalars (i : SReg) (v : ScalarReg) : (s.setS i v).scalars = s.scalars.set i.val v := rfl
@[simp] theorem State.setS_fields (i : SReg) (v : ScalarReg) : (s.setS i v).fields = s.fields := rfl
@[simp] theorem State.setS_quads (i : SReg) (v : ScalarReg) : (s.setS i v).quads = s.quads := rfl
@[simp] theorem State.setS_buf (i : SReg) (v : ScalarReg) : (s.setS i v).buf = s.buf := rfl
@[simp] theorem State.setS_blen (i : SReg) (v : ScalarReg) : (s.setS i v).blen = s.blen := rfl
@[simp] theorem State.setS_status (i : SReg) (v : ScalarReg) : (s.setS i v).status = s.status := rfl
@[simp] theorem State.setS_port (i : SReg) (v : ScalarReg) : (s.setS i v).port = s.port := rfl
@[simp] theorem State.setS_replies (i : SReg) (v : ScalarReg) : (s.setS i v).replies = s.replies := rfl
@[simp] theorem State.setS_draws (i : SReg) (v : ScalarReg) : (s.setS i v).draws = s.draws := rfl

@[simp] theorem State.setF_params (i : FReg) (v : FieldReg) : (s.setF i v).params = s.params := rfl
@[simp] theorem State.setF_ints (i : FReg) (v : FieldReg) : (s.setF i v).ints = s.ints := rfl
@[simp] theorem State.setF_scalars (i : FReg) (v : FieldReg) : (s.setF i v).scalars = s.scalars := rfl
@[simp] theorem State.setF_fields (i : FReg) (v : FieldReg) : (s.setF i v).fields = s.fields.set i.val v := rfl
@[simp] theorem State.setF_quads (i : FReg) (v : FieldReg) : (s.setF i v).quads = s.quads := rfl
@[simp] theorem State.setF_buf (i : FReg) (v : FieldReg) : (s.setF i v).buf = s.buf := rfl
@[simp] theorem State.setF_blen (i : FReg) (v : FieldReg) : (s.setF i v).blen = s.blen := rfl
@[simp] theorem State.setF_status (i : FReg) (v : FieldReg) : (s.setF i v).status = s.status := rfl
@[simp] theorem State.setF_port (i : FReg) (v : FieldReg) : (s.setF i v).port = s.port := rfl
@[simp] theorem State.setF_replies (i : FReg) (v : FieldReg) : (s.setF i v).replies = s.replies := rfl
@[simp] theorem State.setF_draws (i : FReg) (v : FieldReg) : (s.setF i v).draws = s.draws := rfl

@[simp] theorem State.setQ_params (i : QReg) (v : QuadReg) : (s.setQ i v).params = s.params := rfl
@[simp] theorem State.setQ_ints (i : QReg) (v : QuadReg) : (s.setQ i v).ints = s.ints := rfl
@[simp] theorem State.setQ_scalars (i : QReg) (v : QuadReg) : (s.setQ i v).scalars = s.scalars := rfl
@[simp] theorem State.setQ_fields (i : QReg) (v : QuadReg) : (s.setQ i v).fields = s.fields := rfl
@[simp] theorem State.setQ_quads (i : QReg) (v : QuadReg) : (s.setQ i v).quads = s.quads.set i.val v := rfl
@[simp] theorem State.setQ_buf (i : QReg) (v : QuadReg) : (s.setQ i v).buf = s.buf := rfl
@[simp] theorem State.setQ_blen (i : QReg) (v : QuadReg) : (s.setQ i v).blen = s.blen := rfl
@[simp] theorem State.setQ_status (i : QReg) (v : QuadReg) : (s.setQ i v).status = s.status := rfl
@[simp] theorem State.setQ_port (i : QReg) (v : QuadReg) : (s.setQ i v).port = s.port := rfl
@[simp] theorem State.setQ_replies (i : QReg) (v : QuadReg) : (s.setQ i v).replies = s.replies := rfl
@[simp] theorem State.setQ_draws (i : QReg) (v : QuadReg) : (s.setQ i v).draws = s.draws := rfl

@[simp] theorem State.setBuf_params (m : Memory) : (s.setBuf m).params = s.params := rfl
@[simp] theorem State.setBuf_ints (m : Memory) : (s.setBuf m).ints = s.ints := rfl
@[simp] theorem State.setBuf_scalars (m : Memory) : (s.setBuf m).scalars = s.scalars := rfl
@[simp] theorem State.setBuf_fields (m : Memory) : (s.setBuf m).fields = s.fields := rfl
@[simp] theorem State.setBuf_quads (m : Memory) : (s.setBuf m).quads = s.quads := rfl
@[simp] theorem State.setBuf_buf (m : Memory) : (s.setBuf m).buf = m := rfl
@[simp] theorem State.setBuf_blen (m : Memory) : (s.setBuf m).blen = s.blen := rfl
@[simp] theorem State.setBuf_status (m : Memory) : (s.setBuf m).status = s.status := rfl
@[simp] theorem State.setBuf_port (m : Memory) : (s.setBuf m).port = s.port := rfl
@[simp] theorem State.setBuf_replies (m : Memory) : (s.setBuf m).replies = s.replies := rfl
@[simp] theorem State.setBuf_draws (m : Memory) : (s.setBuf m).draws = s.draws := rfl

@[simp] theorem State.setBlen_params (n : BusWord) : (s.setBlen n).params = s.params := rfl
@[simp] theorem State.setBlen_ints (n : BusWord) : (s.setBlen n).ints = s.ints := rfl
@[simp] theorem State.setBlen_scalars (n : BusWord) : (s.setBlen n).scalars = s.scalars := rfl
@[simp] theorem State.setBlen_fields (n : BusWord) : (s.setBlen n).fields = s.fields := rfl
@[simp] theorem State.setBlen_quads (n : BusWord) : (s.setBlen n).quads = s.quads := rfl
@[simp] theorem State.setBlen_buf (n : BusWord) : (s.setBlen n).buf = s.buf := rfl
@[simp] theorem State.setBlen_blen (n : BusWord) : (s.setBlen n).blen = n := rfl
@[simp] theorem State.setBlen_status (n : BusWord) : (s.setBlen n).status = s.status := rfl
@[simp] theorem State.setBlen_port (n : BusWord) : (s.setBlen n).port = s.port := rfl
@[simp] theorem State.setBlen_replies (n : BusWord) : (s.setBlen n).replies = s.replies := rfl
@[simp] theorem State.setBlen_draws (n : BusWord) : (s.setBlen n).draws = s.draws := rfl

@[simp] theorem State.setCode_params (c : Code) : (s.setCode c).params = s.params := rfl
@[simp] theorem State.setCode_ints (c : Code) : (s.setCode c).ints = s.ints := rfl
@[simp] theorem State.setCode_scalars (c : Code) : (s.setCode c).scalars = s.scalars := rfl
@[simp] theorem State.setCode_fields (c : Code) : (s.setCode c).fields = s.fields := rfl
@[simp] theorem State.setCode_quads (c : Code) : (s.setCode c).quads = s.quads := rfl
@[simp] theorem State.setCode_buf (c : Code) : (s.setCode c).buf = s.buf := rfl
@[simp] theorem State.setCode_blen (c : Code) : (s.setCode c).blen = s.blen := rfl
@[simp] theorem State.setCode_status (c : Code) : (s.setCode c).status = statusSetCode s.status c := rfl
@[simp] theorem State.setCode_port (c : Code) : (s.setCode c).port = s.port := rfl
@[simp] theorem State.setCode_replies (c : Code) : (s.setCode c).replies = s.replies := rfl
@[simp] theorem State.setCode_draws (c : Code) : (s.setCode c).draws = s.draws := rfl

@[simp] theorem State.takeFault_params : s.takeFault.params = s.params := rfl
@[simp] theorem State.takeFault_ints : s.takeFault.ints = s.ints := rfl
@[simp] theorem State.takeFault_scalars : s.takeFault.scalars = s.scalars := rfl
@[simp] theorem State.takeFault_fields : s.takeFault.fields = s.fields := rfl
@[simp] theorem State.takeFault_quads : s.takeFault.quads = s.quads := rfl
@[simp] theorem State.takeFault_buf : s.takeFault.buf = s.buf := rfl
@[simp] theorem State.takeFault_blen : s.takeFault.blen = s.blen := rfl
@[simp] theorem State.takeFault_status : s.takeFault.status = statusSetFault (statusSetCode s.status .contractViolation) := rfl
@[simp] theorem State.takeFault_port : s.takeFault.port = s.port := rfl
@[simp] theorem State.takeFault_replies : s.takeFault.replies = s.replies := rfl
@[simp] theorem State.takeFault_draws : s.takeFault.draws = s.draws := rfl

@[simp] theorem State.reply_params (w : BusWord) : (s.reply w).params = s.params := rfl
@[simp] theorem State.reply_ints (w : BusWord) : (s.reply w).ints = s.ints := rfl
@[simp] theorem State.reply_scalars (w : BusWord) : (s.reply w).scalars = s.scalars := rfl
@[simp] theorem State.reply_fields (w : BusWord) : (s.reply w).fields = s.fields := rfl
@[simp] theorem State.reply_quads (w : BusWord) : (s.reply w).quads = s.quads := rfl
@[simp] theorem State.reply_buf (w : BusWord) : (s.reply w).buf = s.buf := rfl
@[simp] theorem State.reply_blen (w : BusWord) : (s.reply w).blen = s.blen := rfl
@[simp] theorem State.reply_status (w : BusWord) : (s.reply w).status = s.status := rfl
@[simp] theorem State.reply_port (w : BusWord) : (s.reply w).port = s.port := rfl
@[simp] theorem State.reply_replies (w : BusWord) : (s.reply w).replies = s.replies ++ [w] := rfl
@[simp] theorem State.reply_draws (w : BusWord) : (s.reply w).draws = s.draws := rfl

@[simp] theorem State.resetInput_params : s.resetInput.params = s.params := rfl
@[simp] theorem State.resetInput_ints : s.resetInput.ints = Vector.ofFn fun i => Config.freeInt s.draws i.val := rfl
@[simp] theorem State.resetInput_scalars : s.resetInput.scalars = Vector.ofFn fun i => Vector.ofFn fun j => Config.freeScalar s.draws i.val j.val := rfl
@[simp] theorem State.resetInput_fields : s.resetInput.fields = Vector.ofFn fun i => Vector.ofFn fun k => Config.freeField s.draws i.val k.val := rfl
@[simp] theorem State.resetInput_quads : s.resetInput.quads = Vector.ofFn fun i => Vector.ofFn fun t => Config.freeQuad s.draws i.val t.val := rfl
@[simp] theorem State.resetInput_buf : s.resetInput.buf = Memory.drawn s.draws := by simp only [State.resetInput]
@[simp] theorem State.resetInput_blen : s.resetInput.blen = 0 := rfl
@[simp] theorem State.resetInput_status : s.resetInput.status = 0 := rfl
@[simp] theorem State.resetInput_port : s.resetInput.port = s.port := rfl
@[simp] theorem State.resetInput_replies : s.resetInput.replies = s.replies := rfl
@[simp] theorem State.resetInput_draws : s.resetInput.draws = s.draws + 1 := rfl

theorem State.getI_setI (i j : IReg) (v : Int512) : (s.setI i v).getI j = if j = i then v else s.getI j := by
  simp only [State.getI, State.setI, Vector.getElem_set, Fin.ext_iff, eq_comm]

@[simp] theorem State.getI_setI_same (i : IReg) (v : Int512) : (s.setI i v).getI i = v := by simp [State.getI_setI]

theorem State.getS_setS (i j : SReg) (v : ScalarReg) : (s.setS i v).getS j = if j = i then v else s.getS j := by
  simp only [State.getS, State.setS, Vector.getElem_set, Fin.ext_iff, eq_comm]

@[simp] theorem State.getS_setS_same (i : SReg) (v : ScalarReg) : (s.setS i v).getS i = v := by simp [State.getS_setS]

theorem State.getF_setF (i j : FReg) (v : FieldReg) : (s.setF i v).getF j = if j = i then v else s.getF j := by
  simp only [State.getF, State.setF, Vector.getElem_set, Fin.ext_iff, eq_comm]

@[simp] theorem State.getF_setF_same (i : FReg) (v : FieldReg) : (s.setF i v).getF i = v := by simp [State.getF_setF]

theorem State.getQ_setQ (i j : QReg) (v : QuadReg) : (s.setQ i v).getQ j = if j = i then v else s.getQ j := by
  simp only [State.getQ, State.setQ, Vector.getElem_set, Fin.ext_iff, eq_comm]

@[simp] theorem State.getQ_setQ_same (i : QReg) (v : QuadReg) : (s.setQ i v).getQ i = v := by simp [State.getQ_setQ]

theorem State.getI_setInt (i j : IReg) (x : Nat) :
    (s.setInt i x).getI j = if j = i then BitVec.ofNat 512 x else s.getI j := State.getI_setI s i j _

@[simp] theorem State.getI_setS_other (k : SReg) (v : ScalarReg) (j : IReg) : (s.setS k v).getI j = s.getI j := rfl
@[simp] theorem State.getI_setF_other (k : FReg) (v : FieldReg) (j : IReg) : (s.setF k v).getI j = s.getI j := rfl
@[simp] theorem State.getI_setQ_other (k : QReg) (v : QuadReg) (j : IReg) : (s.setQ k v).getI j = s.getI j := rfl
@[simp] theorem State.getI_setBuf_other (m : Memory) (j : IReg) : (s.setBuf m).getI j = s.getI j := rfl
@[simp] theorem State.getI_setBlen_other (n : BusWord) (j : IReg) : (s.setBlen n).getI j = s.getI j := rfl
@[simp] theorem State.getI_setCode_other (c : Code) (j : IReg) : (s.setCode c).getI j = s.getI j := rfl
@[simp] theorem State.getI_takeFault_other (j : IReg) : s.takeFault.getI j = s.getI j := rfl
@[simp] theorem State.getI_reply_other (w : BusWord) (j : IReg) : (s.reply w).getI j = s.getI j := rfl

@[simp] theorem State.getS_setI_other (k : IReg) (v : Int512) (j : SReg) : (s.setI k v).getS j = s.getS j := rfl
@[simp] theorem State.getS_setInt_other (k : IReg) (x : Nat) (j : SReg) : (s.setInt k x).getS j = s.getS j := rfl
@[simp] theorem State.getS_setF_other (k : FReg) (v : FieldReg) (j : SReg) : (s.setF k v).getS j = s.getS j := rfl
@[simp] theorem State.getS_setQ_other (k : QReg) (v : QuadReg) (j : SReg) : (s.setQ k v).getS j = s.getS j := rfl
@[simp] theorem State.getS_setBuf_other (m : Memory) (j : SReg) : (s.setBuf m).getS j = s.getS j := rfl
@[simp] theorem State.getS_setBlen_other (n : BusWord) (j : SReg) : (s.setBlen n).getS j = s.getS j := rfl
@[simp] theorem State.getS_setCode_other (c : Code) (j : SReg) : (s.setCode c).getS j = s.getS j := rfl
@[simp] theorem State.getS_takeFault_other (j : SReg) : s.takeFault.getS j = s.getS j := rfl
@[simp] theorem State.getS_reply_other (w : BusWord) (j : SReg) : (s.reply w).getS j = s.getS j := rfl

@[simp] theorem State.getF_setI_other (k : IReg) (v : Int512) (j : FReg) : (s.setI k v).getF j = s.getF j := rfl
@[simp] theorem State.getF_setInt_other (k : IReg) (x : Nat) (j : FReg) : (s.setInt k x).getF j = s.getF j := rfl
@[simp] theorem State.getF_setS_other (k : SReg) (v : ScalarReg) (j : FReg) : (s.setS k v).getF j = s.getF j := rfl
@[simp] theorem State.getF_setQ_other (k : QReg) (v : QuadReg) (j : FReg) : (s.setQ k v).getF j = s.getF j := rfl
@[simp] theorem State.getF_setBuf_other (m : Memory) (j : FReg) : (s.setBuf m).getF j = s.getF j := rfl
@[simp] theorem State.getF_setBlen_other (n : BusWord) (j : FReg) : (s.setBlen n).getF j = s.getF j := rfl
@[simp] theorem State.getF_setCode_other (c : Code) (j : FReg) : (s.setCode c).getF j = s.getF j := rfl
@[simp] theorem State.getF_takeFault_other (j : FReg) : s.takeFault.getF j = s.getF j := rfl
@[simp] theorem State.getF_reply_other (w : BusWord) (j : FReg) : (s.reply w).getF j = s.getF j := rfl

@[simp] theorem State.getQ_setI_other (k : IReg) (v : Int512) (j : QReg) : (s.setI k v).getQ j = s.getQ j := rfl
@[simp] theorem State.getQ_setInt_other (k : IReg) (x : Nat) (j : QReg) : (s.setInt k x).getQ j = s.getQ j := rfl
@[simp] theorem State.getQ_setS_other (k : SReg) (v : ScalarReg) (j : QReg) : (s.setS k v).getQ j = s.getQ j := rfl
@[simp] theorem State.getQ_setF_other (k : FReg) (v : FieldReg) (j : QReg) : (s.setF k v).getQ j = s.getQ j := rfl
@[simp] theorem State.getQ_setBuf_other (m : Memory) (j : QReg) : (s.setBuf m).getQ j = s.getQ j := rfl
@[simp] theorem State.getQ_setBlen_other (n : BusWord) (j : QReg) : (s.setBlen n).getQ j = s.getQ j := rfl
@[simp] theorem State.getQ_setCode_other (c : Code) (j : QReg) : (s.setCode c).getQ j = s.getQ j := rfl
@[simp] theorem State.getQ_takeFault_other (j : QReg) : s.takeFault.getQ j = s.getQ j := rfl
@[simp] theorem State.getQ_reply_other (w : BusWord) (j : QReg) : (s.reply w).getQ j = s.getQ j := rfl

end Sys2Proof.Machine
end

