-- ==== Sys2Proof/Laws/Ops.lean ====
section
/-! SUPPORT. What `STATUS` reads after each write of it, and everything a command, a marshal and a served request can
do, said once (spec 30_encoding R80, 20_memory R52, R57). -/

namespace Sys2Proof.Machine

@[simp] theorem statusCode_setCode (w : BusWord) (c : Code) : statusCode (statusSetCode w c) = c.num := by
  apply BitVec.eq_of_getLsbD_eq
  intro i hi
  have h : (0xFFFFFFF0#32).getLsbD i = false := by interval_cases i <;> decide
  simp only [statusCode, statusSetCode, BitVec.getLsbD_extractLsb', hi, decide_true, Bool.true_and, BitVec.getLsbD_or,
    BitVec.getLsbD_and, BitVec.getLsbD_setWidth, Nat.zero_add, h, Bool.and_false, Bool.false_or]
  simp
  omega

theorem statusSetCode_getLsbD (w : BusWord) (c : Code) (b : Nat) (hb : 4 ≤ b) :
    (statusSetCode w c).getLsbD b = w.getLsbD b := by
  by_cases h32 : b < 32
  · have h : (0xFFFFFFF0#32).getLsbD b = true := by interval_cases b <;> decide
    have hc : c.num.getLsbD b = false := BitVec.getLsbD_of_ge _ _ hb
    simp only [statusSetCode, BitVec.getLsbD_or, BitVec.getLsbD_and, BitVec.getLsbD_setWidth, h, hc]
    simp
  · rw [BitVec.getLsbD_of_ge _ _ (by omega), BitVec.getLsbD_of_ge _ _ (by omega)]

@[simp] theorem statusFault_setCode (w : BusWord) (c : Code) : statusFault (statusSetCode w c) = statusFault w :=
  statusSetCode_getLsbD w c 8 (by omega)

theorem statusSetFault_getLsbD (w : BusWord) (b : Nat) (hb : b ≠ 8) :
    (statusSetFault w).getLsbD b = w.getLsbD b := by
  by_cases h32 : b < 32
  · have h : (0x100#32).getLsbD b = false := by
      interval_cases b <;> first | decide | exact absurd rfl hb
    simp only [statusSetFault, BitVec.getLsbD_or, h, Bool.or_false]
  · rw [BitVec.getLsbD_of_ge _ _ (by omega), BitVec.getLsbD_of_ge _ _ (by omega)]

@[simp] theorem statusFault_setFault (w : BusWord) : statusFault (statusSetFault w) = true := by
  simp only [statusFault, statusSetFault, BitVec.getLsbD_or]
  have : (0x100#32).getLsbD 8 = true := by decide
  rw [this, Bool.or_true]

@[simp] theorem statusCode_setFault (w : BusWord) : statusCode (statusSetFault w) = statusCode w := by
  apply BitVec.eq_of_getLsbD_eq
  intro i hi
  simp only [statusCode, BitVec.getLsbD_extractLsb', hi, decide_true, Bool.true_and, Nat.zero_add]
  exact statusSetFault_getLsbD w i (by omega)

/-- Writing `CODE` twice leaves the second code (R169). -/
@[simp] theorem statusSetCode_setCode (w : BusWord) (c c' : Code) :
    statusSetCode (statusSetCode w c) c' = statusSetCode w c' := by
  apply BitVec.eq_of_getLsbD_eq
  intro b hb
  by_cases h : 4 ≤ b
  · rw [statusSetCode_getLsbD _ _ _ h, statusSetCode_getLsbD _ _ _ h, statusSetCode_getLsbD _ _ _ h]
  · have h1 := statusCode_setCode (statusSetCode w c) c'
    have h2 := statusCode_setCode w c'
    have e : ∀ v : BusWord, v.getLsbD b = (statusCode v).getLsbD b := by
      intro v
      simp only [statusCode, BitVec.getLsbD_extractLsb', Nat.zero_add]
      simp; omega
    rw [e, e (statusSetCode w c'), h1, h2]

@[simp] theorem State.code_setCode (s : State) (c : Code) : (s.setCode c).code = c.num := statusCode_setCode _ _

@[simp] theorem State.faulted_setCode (s : State) (c : Code) : (s.setCode c).faulted = s.faulted :=
  statusFault_setCode _ _

/-- The signal's code is reported and nothing else of `STATUS` changes (R80). -/
theorem State.reports_setCode (s : State) (c : Code) : s.reports (s.setCode c) c :=
  ⟨s.code_setCode c, fun _ hb => statusSetCode_getLsbD _ _ _ hb⟩

/-- Taking the fault writes `CODE` and `FAULT` and nothing else of `STATUS` (R164). -/
theorem State.reportsFault_takeFault (s : State) : s.reportsFault s.takeFault := by
  refine ⟨?_, statusFault_setFault _, fun b hb h8 => ?_⟩
  · simp [State.code]
  · rw [State.takeFault_status, statusSetFault_getLsbD _ _ h8, statusSetCode_getLsbD _ _ _ hb]

/-- Everything a command can do (R80): nothing at all in the fault state, else the ending of its rule. -/
theorem State.command_eq (s : State) (rule : State → Ending) :
    (s.faulted = true → s.command rule = .next s) ∧
      (s.faulted = false → s.command rule = .next (s.conclude (rule s))) := by
  constructor <;> intro h <;> simp [State.command, h]

/-- A command always answers a next state. -/
theorem State.command_cases (s t : State) (rule : State → Ending) (h : s.command rule = .next t) :
    (s.faulted = true ∧ t = s) ∨ (s.faulted = false ∧ t = s.conclude (rule s)) := by
  unfold State.command at h
  split at h
  · next hf => exact .inl ⟨hf, by injection h with h; exact h.symm⟩
  · next hf => exact .inr ⟨by simpa using hf, by injection h with h; exact h.symm⟩

/-- Everything the end of a command can be (R80). -/
theorem State.conclude_cases (s : State) (e : Ending) :
    (∃ t, e = .ok t ∧ s.conclude e = t.setCode .ok) ∨
      (e = .lengthMismatch ∧ s.conclude e = s.setCode .lengthMismatch) ∨
      (e = .encodingOverflow ∧ s.conclude e = s.setCode .encodingOverflow) ∨
      (e = .illegalCommand ∧ s.conclude e = s.setCode .illegalCommand) ∨
      (e = .contractViolation ∧ s.conclude e = s.takeFault) := by
  cases e <;> simp [State.conclude]

/-- A checked ending is `OK` exactly with the state the checks passed on. -/
theorem Ending.ofChecked_eq (o : Option State) :
    (∀ t, Ending.ofChecked o = .ok t ↔ o = some t) ∧ (Ending.ofChecked o = .contractViolation ↔ o = none) := by
  cases o <;> simp [Ending.ofChecked]

/-- A checked ending is `OK` or ContractViolation. -/
theorem Ending.ofChecked_cases (o : Option State) :
    (∃ t, o = some t ∧ Ending.ofChecked o = .ok t) ∨ (o = none ∧ Ending.ofChecked o = .contractViolation) := by
  cases o <;> simp [Ending.ofChecked]

/-- Everything a marshal can do: the fault where a digit is out of range, else the elements and the length (R132, R134,
R136). -/
theorem State.marshal_eq (s : State) (rs : List FieldReg) (len : BusWord) :
    ((∀ r ∈ rs, ranged (fieldDigits r)) →
      s.marshal rs len = .ok ((s.setBuf (s.buf.writeElems 0 (rs.map fun r => valueOf s.params (fieldDigits r)))).setBlen len)) ∧
      (¬ (∀ r ∈ rs, ranged (fieldDigits r)) → s.marshal rs len = .contractViolation) := by
  constructor <;> intro h
  · simp [State.marshal, (fdecAll_eq s.params rs).1 h, Ending.ofChecked]
  · simp [State.marshal, (fdecAll_eq s.params rs).2 h, Ending.ofChecked]

/-- Element `k` read through `fenc`, where it is representable (R122, R133). -/
theorem State.fencElem_eq (s : State) (k : Nat) :
    (representable s.params (s.elemValue k) → ∃ r, s.fencElem k = some r ∧ holdsDigits s.params.V (s.elemValue k) r) ∧
      (¬ representable s.params (s.elemValue k) → s.fencElem k = none) := by
  simp only [State.fencElem, beUint_readElem]
  exact ⟨fencReg_of_representable _ _, fencReg_of_not_representable _ _⟩

/-- `ilv(fenc(a), fenc(b))`, where both are representable (R113). -/
theorem fencPair_eq (p : Params) (a b : Nat) :
    (representable p a ∧ representable p b → ∃ T, fencPair p a b = some T ∧ holdsPair p.V a b T) ∧
      (¬ (representable p a ∧ representable p b) → fencPair p a b = none) := by
  constructor
  · rintro ⟨ha, hb⟩
    obtain ⟨ra, ea, da⟩ := fencReg_of_representable p a ha
    obtain ⟨rb, eb, db⟩ := fencReg_of_representable p b hb
    refine ⟨ilv ra rb, by simp [fencPair, ea, eb], fun k => ?_⟩
    rw [digitsA_ilv, digitsB_ilv]
    exact ⟨da k, db k⟩
  · intro h
    by_cases ha : representable p a
    · have hb : ¬ representable p b := fun hb => h ⟨ha, hb⟩
      simp [fencPair, fencReg_of_not_representable p b hb]
    · simp [fencPair, fencReg_of_not_representable p a ha]

/-- The wire pair `j` read through `fenc` (R135, R137). -/
theorem State.fencElemPair_eq (s : State) (j : Nat) :
    s.fencElemPair j = fencPair s.params (s.elemValue (2 * j)) (s.elemValue (2 * j + 1)) := by
  simp only [State.fencElemPair, beUint_readElem]

/-- A request the port can express is never refused by the port (R52). -/
theorem accessOk_of_expressible (off size : Nat) (h : off < 0x2000 ∧ off % 4 = 0 ∧ size = 4) :
    ¬ off ≥ 0x2000 ∧ accessOk off size = true := by
  simp [accessOk, h]

end Sys2Proof.Machine
end

