-- ==== Sys2Proof/Laws/PerInstr.lean ====
section
/-! SUPPORT. The family of lemmas about each command as syntax, one lemma per constructor (LAWS.json). -/

namespace Sys2Proof.Laws

/-- The word of a command carries its opcode in `OPC` and zero in `Z` (spec 30_encoding R71, R74). -/
def EncodingFields.Statement (i : Instr) : Prop :=
  fieldOpc (encode i) = i.opcode ∧ fieldZ (encode i) = 0

/-- `OPC` and `Z` of a packed word whose fields fit (R71). -/
theorem pack_opc_z (opc a b c k : Nat) (ho : opc < 256) (ha : a < 16) (hb : b < 16) (hc : c < 16) (hk : k < 16) :
    fieldOpc (pack opc a b c k) = opc ∧ fieldZ (pack opc a b c k) = 0 := by
  simp only [fieldOpc, fieldZ, bits, pack, BitVec.toNat_ofNat]
  omega

theorem EncodingFields.nop : EncodingFields.Statement Instr.nop :=
  pack_opc_z _ 0 0 0 0 (by simp [Instr.opcode]) (by omega) (by omega) (by omega) (by omega)

theorem EncodingFields.senc (d : SReg) (r : IReg) : EncodingFields.Statement (Instr.senc d r) :=
  pack_opc_z _ d.val r.val 0 0 (by simp [Instr.opcode]) (by omega) (by omega) (by omega) (by omega)

theorem EncodingFields.sdec (d : IReg) (r : SReg) : EncodingFields.Statement (Instr.sdec d r) :=
  pack_opc_z _ d.val r.val 0 0 (by simp [Instr.opcode]) (by omega) (by omega) (by omega) (by omega)

theorem EncodingFields.fenc (d : FReg) (r : IReg) : EncodingFields.Statement (Instr.fenc d r) :=
  pack_opc_z _ d.val r.val 0 0 (by simp [Instr.opcode]) (by omega) (by omega) (by omega) (by omega)

theorem EncodingFields.fdec (d : IReg) (r : FReg) : EncodingFields.Statement (Instr.fdec d r) :=
  pack_opc_z _ d.val r.val 0 0 (by simp [Instr.opcode]) (by omega) (by omega) (by omega) (by omega)

theorem EncodingFields.qilv (d : QReg) (a b : FReg) : EncodingFields.Statement (Instr.qilv d a b) :=
  pack_opc_z _ d.val a.val b.val 0 (by simp [Instr.opcode]) (by omega) (by omega) (by omega) (by omega)

theorem EncodingFields.qdil (a b : FReg) (r : QReg) : EncodingFields.Statement (Instr.qdil a b r) :=
  pack_opc_z _ a.val r.val b.val 0 (by simp [Instr.opcode]) (by omega) (by omega) (by omega) (by omega)

theorem EncodingFields.qenc (d : QReg) (a b : IReg) : EncodingFields.Statement (Instr.qenc d a b) :=
  pack_opc_z _ d.val a.val b.val 0 (by simp [Instr.opcode]) (by omega) (by omega) (by omega) (by omega)

theorem EncodingFields.qdec (a b : IReg) (r : QReg) : EncodingFields.Statement (Instr.qdec a b r) :=
  pack_opc_z _ a.val r.val b.val 0 (by simp [Instr.opcode]) (by omega) (by omega) (by omega) (by omega)

theorem EncodingFields.ftob (r : FReg) (k : Elem) : EncodingFields.Statement (Instr.ftob r k) :=
  pack_opc_z _ 0 r.val 0 k.val (by simp [Instr.opcode]) (by omega) (by omega) (by omega) (by omega)

theorem EncodingFields.btof (d : FReg) (k : Elem) : EncodingFields.Statement (Instr.btof d k) :=
  pack_opc_z _ d.val 0 0 k.val (by simp [Instr.opcode]) (by omega) (by omega) (by omega) (by omega)

theorem EncodingFields.mg1 : EncodingFields.Statement Instr.mg1 :=
  pack_opc_z _ 0 0 0 0 (by simp [Instr.opcode]) (by omega) (by omega) (by omega) (by omega)

theorem EncodingFields.ug1 : EncodingFields.Statement Instr.ug1 :=
  pack_opc_z _ 0 0 0 0 (by simp [Instr.opcode]) (by omega) (by omega) (by omega) (by omega)

theorem EncodingFields.mg2 : EncodingFields.Statement Instr.mg2 :=
  pack_opc_z _ 0 0 0 0 (by simp [Instr.opcode]) (by omega) (by omega) (by omega) (by omega)

theorem EncodingFields.ug2 : EncodingFields.Statement Instr.ug2 :=
  pack_opc_z _ 0 0 0 0 (by simp [Instr.opcode]) (by omega) (by omega) (by omega) (by omega)

theorem EncodingFields.mgt : EncodingFields.Statement Instr.mgt :=
  pack_opc_z _ 0 0 0 0 (by simp [Instr.opcode]) (by omega) (by omega) (by omega) (by omega)

theorem EncodingFields.ugt : EncodingFields.Statement Instr.ugt :=
  pack_opc_z _ 0 0 0 0 (by simp [Instr.opcode]) (by omega) (by omega) (by omega) (by omega)

end Sys2Proof.Laws
end

