-- ==== Sys2Proof/Laws/Port.lean ====
section
/-! SUPPORT. What the host port can do, said once: bus words of a register, a host write, a command as its rule, one
transaction (spec 20_memory R52 to R57, 30_encoding R80). -/

namespace Sys2Proof.Machine

/-- The register of a decode result reads back as that integer (R108(f)). -/
theorem toNat_ofNat512 (x : Nat) (h : x < 2 ^ 256) : (BitVec.ofNat 512 x).toNat = x := by
  rw [BitVec.toNat_ofNat]
  exact Nat.mod_eq_of_lt (lt_of_lt_of_le h (Nat.pow_le_pow_right (by omega) (by omega)))

/-- Bus word `j'` after bus word `j` was replaced: the new word, or what it was (R53). -/
theorem busWord_setBusWord {n : Nat} (x : BitVec n) (j j' : Nat) (v : BusWord) (h : 32 * j + 32 ≤ n) :
    busWord (setBusWord x j v) j' = if j' = j then v else busWord x j' := by
  apply BitVec.eq_of_getLsbD_eq
  intro b hb
  by_cases hj : j' = j
  · subst hj
    have h1 : 32 * j' + b < n := by omega
    have h2 : ¬ 32 * j' + b < 32 * j' := by omega
    have h3 : 32 * j' + b - 32 * j' = b := by omega
    have h4 : (BitVec.allOnes 32).getLsbD b = true := (BitVec.getLsbD_allOnes).trans (decide_eq_true hb)
    simp only [busWord, setBusWord, BitVec.getLsbD_extractLsb', hb, decide_true, Bool.true_and, BitVec.getLsbD_or,
      BitVec.getLsbD_and, BitVec.getLsbD_not, BitVec.getLsbD_shiftLeft, BitVec.getLsbD_setWidth, h1, h2, h3, h4,
      decide_false, Bool.not_false, Bool.and_true]
    have h5 : b < n := by omega
    simp [h5]
  · rw [if_neg hj]
    simp only [busWord, setBusWord, BitVec.getLsbD_extractLsb', hb, decide_true, Bool.true_and, BitVec.getLsbD_or,
      BitVec.getLsbD_and, BitVec.getLsbD_not, BitVec.getLsbD_shiftLeft, BitVec.getLsbD_setWidth, BitVec.getLsbD_allOnes]
    by_cases hn : 32 * j' + b < n
    · have : ¬ (32 * j ≤ 32 * j' + b ∧ 32 * j' + b - 32 * j < 32) := by omega
      by_cases hlt : 32 * j' + b < 32 * j
      · simp [hn, hlt]
      · have h3 : ¬ 32 * j' + b - 32 * j < 32 := by omega
        have h4 : v.getLsbD (32 * j' + b - 32 * j) = false := BitVec.getLsbD_of_ge _ _ (by omega)
        simp [hn, hlt, h3, h4]
    · have h5 : x.getLsbD (32 * j' + b) = false := BitVec.getLsbD_of_ge _ _ (by omega)
      simp [hn, h5]

/-- A host write changes none of `STATUS`, the constants, the host's lists, the count of draws (R36, R57). -/
theorem State.writeTarget_frame (s : State) (t : Target) (v : BusWord) :
    (s.writeTarget t v).status = s.status ∧ (s.writeTarget t v).params = s.params ∧ (s.writeTarget t v).port = s.port ∧
      (s.writeTarget t v).replies = s.replies ∧ (s.writeTarget t v).draws = s.draws := by
  cases t <;> exact ⟨rfl, rfl, rfl, rfl, rfl⟩

/-- A host write keeps the canonical form of the buffer (log 11). -/
theorem State.writeTarget_wf (s : State) (t : Target) (v : BusWord) (h : s.buf.wf = true) :
    (s.writeTarget t v).buf.wf = true := by
  cases t with
  | buffer m =>
    refine Memory.wf_writeBytes _ _ _ ?_ h
    have := m.isLt
    simp only [lanes, List.length_map, List.length_range, bufBytes]
    omega
  | _ => exact h

/-- The rule of each command (R74). -/
def ruleOf (i : Instr) : State → Ending :=
  match i with
  | .nop => .ok
  | .senc d r => sencRule d r
  | .sdec d r => sdecRule d r
  | .fenc d r => fencRule d r
  | .fdec d r => fdecRule d r
  | .qilv d a b => qilvRule d a b
  | .qdil a b r => qdilRule a b r
  | .qenc d a b => qencRule d a b
  | .qdec a b r => qdecRule a b r
  | .ftob r k => ftobRule r k
  | .btof d k => btofRule d k
  | .mg1 => mg1Rule
  | .ug1 => ug1Rule
  | .mg2 => mg2Rule
  | .ug2 => ug2Rule
  | .mgt => mgtRule
  | .ugt => ugtRule

/-- Every command is its rule, run as one step (R80). -/
theorem exec_eq (i : Instr) (s : State) : exec i s = s.command (ruleOf i) := by cases i <;> rfl

/-- Every word runs as a command step of some rule: that of the command it decodes to, or IllegalCommand (R80). -/
theorem runWord_eq (c : BusWord) (s : State) :
    (∃ i, decode c = .ok i ∧ runWord c s = s.command (ruleOf i)) ∨
      (∃ e, decode c = .error e ∧ runWord c s = s.command fun _ => .illegalCommand) := by
  unfold runWord
  cases h : decode c with
  | error e => exact .inr ⟨e, rfl, rfl⟩
  | ok i => exact .inl ⟨i, rfl, exec_eq i s⟩

/-- Everything a served transaction that answers a next state can be (R52, R57, R180). -/
theorem serve_cases (r : Request) (s t : State) (h : serve r s = .next t) :
    (r = .reset ∧ t = s.resetInput) ∨
      (∃ off, r = .read off 4 ∧ off < 0x2000 ∧ off % 4 = 0 ∧ t = s.reply (s.readTarget (target off))) ∨
      (∃ off v, r = .write off 4 v ∧ off < 0x2000 ∧ off % 4 = 0 ∧
        ((target off = .cmd ∧ runWord v s = .next t) ∨ (target off ≠ .cmd ∧ t = s.writeTarget (target off) v))) := by
  cases r with
  | reset => exact .inl ⟨rfl, by cases h; rfl⟩
  | read off size =>
    by_cases h1 : off ≥ 0x2000
    · simp [serve, h1] at h
    · by_cases h2 : off % 4 = 0 ∧ size = 4
      · obtain ⟨h2, rfl⟩ := h2
        simp only [serve, accessOk, if_neg h1, h2, decide_true, Bool.and_self, if_true] at h
        exact .inr (.inl ⟨off, rfl, by omega, h2, by cases h; rfl⟩)
      · simp [serve, accessOk, h1, h2] at h
  | write off size v =>
    by_cases h1 : off ≥ 0x2000
    · simp [serve, h1] at h
    · by_cases h2 : off % 4 = 0 ∧ size = 4
      · obtain ⟨h2, rfl⟩ := h2
        simp only [serve, accessOk, serveWrite, if_neg h1, h2, decide_true, Bool.and_self, if_true] at h
        refine .inr (.inr ⟨off, v, rfl, by omega, h2, ?_⟩)
        by_cases hc : target off = .cmd
        · rw [if_pos hc] at h
          exact .inl ⟨hc, h⟩
        · rw [if_neg hc] at h
          exact .inr ⟨hc, by cases h; rfl⟩
      · simp [serve, accessOk, h1, h2] at h

end Sys2Proof.Machine
end

