-- ==== Sys2Proof/Tests/Slice0.lean ====
section
/-! SUPPORT. Tests: words written out from 30_encoding R74, single steps with results taken from 95_test_vectors and
the examples of each command's rule, and for each statement with hypotheses a state and operands that meet them all. -/

namespace Sys2Proof.Machine.Tests

open Sys2Proof Sys2Proof.Machine

-- One theorem after another: each kernel evaluation otherwise holds a thread of its own while it waits for the others.
set_option Elab.async false

/-! ### States to test on -/

/-- The default modulus (R5). -/
def pDef : Nat := 0x8fb501e34aa387f9aa6fecb86184dc21ee5b88d120b5b59e185cac6c5e089667

/-- The first integer whose digit 11 is above `DIGIT_MAX` with the default parameters (R107). -/
def firstBad : Nat := (2 ^ 53 + 1) * 36 * 1868033 ^ 11

/-- Small states: an integer in `I0`. -/
def withI (x : Nat) : State := State.reset.setInt 0 x

/-- The field register with digit 0 as given and the others 0. -/
def unit (d : Cell64) : FieldReg := #v[d, 0, 0, 0, 0, 0, 0, 0, 0, 0, 0, 0]

/-- A digit one above `DIGIT_MAX` (R26). -/
def badDigit : FieldReg := unit 0x20000000000001

/-- `F0 = (1, 0, ...)`, `F1 = (-2, 0, ...)`: the example of R132. -/
def pointG1 : State := (State.reset.setF 0 (unit 1)).setF 1 (unit (-2))

/-- `Q0.s[1] = 1`, `Q1.s[0] = 2`: the example of R134. -/
def pointG2 : State := (State.reset.setQ 0 (ilv (unit 1) zeroField)).setQ 1 (ilv zeroField (unit 2))

/-- `Q5.s[0] = 7`: the example of R136. -/
def elementGT : State := State.reset.setQ 5 (ilv zeroField (unit 7))

/-- Element `k` of the buffer holds `x`, and `BLEN` holds `n`. -/
def withBytes (k x : Nat) (n : BusWord) : State :=
  (State.reset.setBuf (Memory.writeBytes [] (32 * k) (be32 x))).setBlen n

/-- The state after a `ContractViolation`. -/
def faultedState : State := State.reset.takeFault

/-- A state whose host has the given transactions left. -/
def asking (s : State) (rs : List Request) : State := { s with port := rs }

/-- The next state of an outcome, or the first argument where there is none. -/
def nextOr (d : State) : Host.Outcome State Fault Refusal → State
  | .next t => t
  | _ => d

/-- The state after a command. -/
def after (i : Instr) (s : State) : State := nextOr State.reset (exec i s)

/-! ### WellFormed: each check refuses an ill-formed term -/

theorem test_qdil_same_destination_ill_formed : (Instr.qdil 2 2 5).wellFormed = false := by decide
theorem test_qdec_same_destination_ill_formed : (Instr.qdec 1 1 0).wellFormed = false := by decide
theorem test_qilv_same_source_well_formed : (Instr.qilv 5 3 3).wellFormed = true := by decide

/-! ### Decode: words written out bit by bit from R71 and R74 -/

theorem test_decode_nop : decode 0b00000000000000000000000000000000#32 = .ok .nop := by decide
theorem test_decode_senc : decode 0b00010000000100100000000000000000#32 = .ok (.senc 1 2) := by decide
theorem test_decode_sdec : decode 0b00010001001100010000000000000000#32 = .ok (.sdec 3 1) := by decide
theorem test_decode_fenc : decode 0b00100000000100100000000000000000#32 = .ok (.fenc 1 2) := by decide
theorem test_decode_fdec : decode 0b00100001001000010000000000000000#32 = .ok (.fdec 2 1) := by decide
theorem test_decode_qilv : decode 0b00110000010100010010000000000000#32 = .ok (.qilv 5 1 2) := by decide
theorem test_decode_qdil : decode 0b00110001000001010001000000000000#32 = .ok (.qdil 0 1 5) := by decide
theorem test_decode_qenc : decode 0b00110010000100100011000000000000#32 = .ok (.qenc 1 2 3) := by decide
theorem test_decode_qdec : decode 0b00110011001001000011000000000000#32 = .ok (.qdec 2 3 4) := by decide
theorem test_decode_ftob : decode 0b01000000000000110000000000001011#32 = .ok (.ftob 3 11) := by decide
theorem test_decode_btof : decode 0b01000001001000000000000000001010#32 = .ok (.btof 2 10) := by decide
theorem test_decode_mg1 : decode 0b01010000000000000000000000000000#32 = .ok .mg1 := by decide
theorem test_decode_ug1 : decode 0b01010001000000000000000000000000#32 = .ok .ug1 := by decide
theorem test_decode_mg2 : decode 0b01010010000000000000000000000000#32 = .ok .mg2 := by decide
theorem test_decode_ug2 : decode 0b01010011000000000000000000000000#32 = .ok .ug2 := by decide
theorem test_decode_mgt : decode 0b01010100000000000000000000000000#32 = .ok .mgt := by decide
theorem test_decode_ugt : decode 0b01010101000000000000000000000000#32 = .ok .ugt := by decide

/-- The illegal words of R76, one for each condition: a reserved opcode, `Z`, an unused field, an index out of range, `K`
above 11, equal destinations. -/
theorem test_decode_illegal :
    ([0x12000000#32, 0x10000010#32, 0x50000001#32, 0x10200000#32, 0x30600000#32, 0x4000000C#32, 0x31101000#32,
      0x33000000#32].map fun c => (decode c).toBool) = List.replicate 8 false := by decide

/-- The host's question about a table word is the decoder's answer. -/
theorem test_decodeTableWord : decodeTableWord 32 0x55000000 = some .ugt ∧ decodeTableWord 32 0x56000000 = none := by
  decide

/-! ### Single steps, one or two for each command -/

/-- T3 and T7 (95_test_vectors): `I0 = 2^64`, and `I0 = 2^256` which overflows. -/
theorem test_senc : (after (.senc 0 0) (withI (2 ^ 64))).getS 0 = #v[0, 1, 0, 0] ∧
    (after (.senc 0 0) (withI (2 ^ 256))).status = 0x002 := by decide +kernel

/-- T9: bit 255. -/
theorem test_sdec : ((after (.sdec 3 1) (State.reset.setS 1 #v[0, 0, 0, 0x8000000000000000])).getI 3).toNat = 2 ^ 255 := by
  decide +kernel

/-- T24: `P - 2`. -/
theorem test_fenc : (after (.fenc 1 0) (withI (pDef - 2))).getF 1
    = #v[11208197, 1868032, 1868032, 0, 0, 0, 4, 0, 0, 1, 0, 1868033] := by decide +kernel

/-- R107: the first failing input faults and the one before it does not. -/
theorem test_fenc_fault : (after (.fenc 1 0) (withI firstBad)).status = 0x104 ∧
    (after (.fenc 1 0) (withI (firstBad - 1))).status = 0 := by decide +kernel

/-- R104: `(-1, 0, ...)` gives `P - 1`. -/
theorem test_fdec : ((after (.fdec 2 1) (State.reset.setF 1 (unit (-1)))).getI 2).toNat = pDef - 1 := by decide +kernel

/-- R104: `DIGIT_MAX` is accepted and `DIGIT_MAX + 1` is not. -/
theorem test_fdec_fault : (after (.fdec 2 1) (State.reset.setF 1 badDigit)).status = 0x104 ∧
    ((after (.fdec 2 1) (State.reset.setF 1 (unit 0x20000000000000))).getI 2).toNat = 2 ^ 53 := by decide +kernel

/-- The example of R111. -/
theorem test_qilv :
    (after (.qilv 0 0 1) ((State.reset.setF 0 #v[1, 2, 3, 4, 5, 6, 7, 8, 9, 10, 11, 12]).setF 1
      #v[101, 102, 103, 104, 105, 106, 107, 108, 109, 110, 111, 112])).getQ 0
    = #v[101, 1, 102, 2, 103, 3, 104, 4, 105, 5, 106, 6, 107, 7, 108, 8, 109, 9, 110, 10, 111, 11, 112, 12] := by
  decide +kernel

/-- The example of R112. -/
theorem test_qdil :
    (after (.qdil 2 3 0) (State.reset.setQ 0
      #v[101, 1, 102, 2, 103, 3, 104, 4, 105, 5, 106, 6, 107, 7, 108, 8, 109, 9, 110, 10, 111, 11, 112, 12])).getF 2
    = #v[1, 2, 3, 4, 5, 6, 7, 8, 9, 10, 11, 12] := by decide +kernel

/-- The example of R113. -/
theorem test_qenc : (after (.qenc 2 0 1) (withI 1)).getQ 2
    = #v[0, 1, 0, 0, 0, 0, 0, 0, 0, 0, 0, 0, 0, 0, 0, 0, 0, 0, 0, 0, 0, 0, 0, 0] := by decide +kernel

/-- The example of R114. -/
theorem test_qdec : (after (.qdec 2 3 0) pointG2).getI 2 = 1 ∧ (after (.qdec 2 3 1) pointG2).getI 3 = 2 := by
  decide +kernel

/-- R121: `(-1, 0, ...)` gives the bytes of `P - 1`; the first and the last of element 11 (R108(g): 352 to 383). -/
theorem test_ftob : ((after (.ftob 0 11) (State.reset.setF 0 (unit (-1)))).buf.read 352,
    (after (.ftob 0 11) (State.reset.setF 0 (unit (-1)))).buf.read 383) = (0x8f, 0x66) := by decide +kernel

/-- R122: 32 bytes of 0xFF. -/
theorem test_btof : (after (.btof 3 1) (withBytes 1 (2 ^ 256 - 1) 0)).getF 3
    = #v[5311245, 1321167, 1092524, 1517843, 677073, 1832557, 4589151, 110175, 1811597, 869194, 275969, 3327717] := by
  decide +kernel

/-- The example of R132: `be32(1)`, `be32(P - 2)`, `BLEN = 64`. -/
theorem test_mg1 : ((after .mg1 pointG1).readElem 0, beUint ((after .mg1 pointG1).readElem 1), (after .mg1 pointG1).blen)
    = (be32 1, pDef - 2, 64) := by decide +kernel

/-- R133: the markers, and `BLEN = 65`. -/
theorem test_ug1 : (after .ug1 (withBytes 1 2 64)).getF 1 = unit 2 ∧ (after .ug1 (withBytes 1 2 64)).getF 2 = unit 1 ∧
    (after .ug1 (withBytes 1 2 65)).status = 0x001 := by decide +kernel

/-- The example of R134. -/
theorem test_mg2 : ((List.range 4).map fun k => beUint ((after .mg2 pointG2).readElem k)) = [1, 0, 0, 2] ∧
    (after .mg2 pointG2).blen = 128 := by decide +kernel

/-- R135: y.b to the even slots of `Q1`, the marker in slot 1 of `Q2`, and `BLEN = 64`. -/
theorem test_ug2 : (after .ug2 (withBytes 3 9 128)).getQ 1 = ilv zeroField (unit 9) ∧
    (after .ug2 (withBytes 3 9 128)).getQ 2 = ilv (unit 1) zeroField ∧
    (after .ug2 (withBytes 3 9 64)).status = 0x001 := by decide +kernel

/-- The example of R136. -/
theorem test_mgt : beUint ((after .mgt elementGT).readElem 11) = 7 ∧ (after .mgt elementGT).buf.read 384 = 0 ∧
    (after .mgt elementGT).blen = 384 := by decide +kernel

/-- The example of R137, and `BLEN = 383`. -/
theorem test_ugt : (after .ugt (withBytes 11 7 384)).getQ 5 = ilv zeroField (unit 7) ∧
    (after .ugt (withBytes 11 7 383)).status = 0x001 := by decide +kernel

/-- R150: after a failed `UG1`, `NOP` gives `CODE = 0`; in the fault state it does nothing. -/
theorem test_nop : (after .nop (after .ug1 State.reset)).status = 0 ∧ (after .nop faultedState).status = 0x104 := by
  decide +kernel

/-- A write to `CMD` runs the command on the port, and a read returns its word (R31, R59). -/
theorem test_port : (nextOr State.reset (step (State.reset.withFetchWord 32 0x12000000))).status = 0x003 ∧
    (nextOr State.reset (step (asking (withI (2 ^ 32)) [.read 0x104 4]))).replies = [1] := by decide +kernel

/-- The default parameters are those of R5, and their last canonical bound is `V` (R106). -/
theorem test_defaults : Params.default.P = pDef ∧ (pDef - 1) / (36 * 1868033 ^ 11) = 1868033 := by decide +kernel

/-! ### Witnesses: for each statement with hypotheses, values that meet them all, one for each of its clauses -/

/-- What `exec` answers is `.next` of the state `after` gives. -/
theorem exec_answers (i : Instr) (s : State) : exec i s = .next (after i s) := by
  have h : ∀ rule : State → Ending, s.command rule = .next (nextOr State.reset (s.command rule)) := by
    intro rule
    simp only [State.command]
    split <;> rfl
  cases i <;> exact h _

theorem witness_DecodeOfEncodedCommand : (Instr.qdil 0 3 5).wellFormed = true := by decide

theorem witness_EncodeOfDecodedWord : decode 0x4130000B#32 = .ok (.btof 3 11) := by decide

theorem witness_IllegalExactlyByFields : illegalByFields 0x56000000#32 ∧ illegalByFields 0x30600000#32 ∧
    illegalByFields 0x4000000C#32 ∧ illegalByFields 0x33000000#32 ∧ illegalByFields 0x00000010#32 ∧
    (withI 1).faulted = false :=
  ⟨trivial, Or.inr (Or.inl (by decide)), Or.inr (Or.inr (Or.inr (Or.inr (Or.inl (by decide))))),
    Or.inr (Or.inr (Or.inr (Or.inr (Or.inr (by decide))))), Or.inl (by decide), by decide⟩

theorem witness_StepRunsTheDecodedCommand : (asking (withI 1) [.write 0x008 4 0x10100000]).port = [.write 0x008 4 0x10100000] ∧
    decode 0x10100000#32 = .ok (.senc 1 0) := by decide

theorem witness_IllegalWordOnlySetsTheCode : (asking (withI 1) [.write 0x008 4 0x12000000]).port = [.write 0x008 4 0x12000000] ∧
    (decode 0x12000000#32).toBool = false ∧ (asking (withI 1) [.write 0x008 4 0x12000000]).faulted = false := by decide

/-- One state for each clause: a write to `CMD`, a write and a read at the last buffer word, the reset input. -/
theorem witness_FaultStateLastsUntilReset : ∀ r ∈ [Request.write 0x008 4 0x50000000, .write 0x117C 4 7, .read 0x117C 4, .reset],
    (asking faultedState [r]).legal ∧ (asking faultedState [r]).faulted = true ∧ (asking faultedState [r]).port = [r] := by
  intro r _
  have h : faultedState.status = 0x104 ∧ faultedState.buf.wf = true ∧ faultedState.faulted = true := by decide
  exact ⟨⟨Or.inr (Or.inr (Or.inr (Or.inr h.1))), h.2.1⟩, h.2.2, rfl⟩

theorem witness_IdleKeepsAllState : (withI 1).port = [] := by decide

theorem witness_ReadsHaveNoSideEffect : 0x1FFC < 0x2000 ∧ 0x1FFC % 4 = 0 ∧
    (asking (withI 1) [.read 0x1FFC 4, .read 0x1FFC 4]).port = .read 0x1FFC 4 :: .read 0x1FFC 4 :: [] := by decide

/-- The word written and the word read: the same, two neighbours, a reserved one, a read-only one. -/
theorem witness_ReadAfterHostWrite : ∀ o ∈ [(0x117C, 0x117C), (0x1178, 0x117C), (0x1180, 0x1180), (0x00C, 0x00C)],
    o.1 < 0x2000 ∧ o.1 % 4 = 0 ∧ o.2 < 0x2000 ∧ o.2 % 4 = 0 ∧ o.1 ≠ 0x008 ∧
    (asking (withI 1) [.write o.1 4 9, .read o.2 4]).port = .write o.1 4 9 :: .read o.2 4 :: [] := by decide

theorem witness_ReadAfterHostWrite_kinds : (¬ reservedOffset 0x117C ∧ ¬ readOnlyOffset 0x117C) ∧ reservedOffset 0x1180 ∧
    readOnlyOffset 0x00C := by
  refine ⟨⟨?_, ?_⟩, ?_, ?_⟩ <;>
    first | (unfold reservedOffset; decide +kernel) | (unfold readOnlyOffset; decide +kernel)

/-- The first and last reserved offsets, `CMD`, and the ends of the read-only ranges. -/
theorem witness_ReservedAndReadOnlyOffsets : (reservedOffset 0x014 ∧ reservedOffset 0x460 ∧ reservedOffset 0x5FC ∧
    reservedOffset 0xDFC ∧ reservedOffset 0x1FFC) ∧ (readOnlyOffset 0x000 ∧ readOnlyOffset 0x024 ∧ readOnlyOffset 0x07C) ∧
    (asking (withI 1) [.read 0x008 4]).port = .read 0x008 4 :: [] ∧
    (asking (withI 1) [.write 0x014 4 1]).port = .write 0x014 4 1 :: [] := by
  refine ⟨⟨Or.inl (by decide), Or.inr (Or.inr (Or.inr (Or.inr (Or.inl ⟨0, by decide⟩)))),
    Or.inr (Or.inr (Or.inr (Or.inr (Or.inl ⟨3, by decide⟩)))),
    Or.inr (Or.inr (Or.inr (Or.inr (Or.inr (Or.inr (Or.inl ⟨5, by decide⟩)))))),
    Or.inr (Or.inr (Or.inr (Or.inr (Or.inr (Or.inr (Or.inr (Or.inr (by decide))))))))⟩,
    ⟨Or.inl rfl, Or.inr (Or.inr (Or.inr (Or.inl (by decide)))), Or.inr (Or.inr (Or.inr (Or.inr (by decide))))⟩, rfl, rfl⟩

/-- The default parameters with 32-bit words. -/
def params32 : Params := { Params.default with wordBits := .w32, order := 5, order_port := by decide }

theorem witness_IdentityAndConfiguration : State.reset.params.wordBits = .w64 ∧
    ({ State.reset with params := params32 } : State).params.wordBits = .w32 := by decide

/-- Each clause at its boundary: the first offset outside the window, a misaligned one inside, another size. -/
theorem witness_IllFormedAccessesStop :
    (asking (withI 1) [.read 0x2000 4]).port = .read 0x2000 4 :: [] ∧ 0x2000 ≤ 0x2000 ∧
    (asking (withI 1) [.write 0x1FFE 4 0]).port = .write 0x1FFE 4 0 :: [] ∧ 0x1FFE % 4 ≠ 0 ∧
    (asking (withI 1) [.read 0x1FFC 1]).port = .read 0x1FFC 1 :: [] ∧ 1 ≠ 4 := by decide

theorem witness_ResetInputClearsStatus : (asking faultedState [.reset, .read 0x00C 4]).port = .reset :: [.read 0x00C 4] := by
  decide

theorem witness_StepKeepsTheStateLegal : (asking (withBytes 11 7 3) [.write 0x117C 4 0]).legal ∧
    step (asking (withBytes 11 7 3) [.write 0x117C 4 0])
      = .next (nextOr State.reset (step (asking (withBytes 11 7 3) [.write 0x117C 4 0]))) :=
  ⟨⟨Or.inl (by decide), by decide +kernel⟩, rfl⟩

theorem witness_ConstantsNeverChange : step (asking (withI 1) [.write 0x020 4 7])
    = .next (nextOr State.reset (step (asking (withI 1) [.write 0x020 4 7]))) := rfl

theorem witness_CommandWritesOnlyItsRegisters : exec .mg1 pointG1 = .next (after .mg1 pointG1) := exec_answers _ _

theorem witness_FailedCommandWritesOnlyStatus : exec .ug1 (withI 1) = .next (after .ug1 (withI 1)) ∧
    (after .ug1 (withI 1)).code ≠ Code.ok.num ∧
    runWord 0x12000000 (withI 1) = .next (nextOr State.reset (runWord 0x12000000 (withI 1))) ∧
    (nextOr State.reset (runWord 0x12000000 (withI 1))).code ≠ Code.ok.num :=
  ⟨exec_answers _ _, by decide +kernel, rfl, by decide +kernel⟩

/-- Two states that differ in `I1`, which `SENC S1, I0` does not read; and two faulted ones. -/
theorem witness_OutcomeDependsOnlyOnWhatIsRead :
    (withI 5).params = ((withI 5).setInt 1 9).params ∧ (withI 5).faulted = ((withI 5).setInt 1 9).faulted ∧
    (withI 5).faulted = false ∧ faultedState.faulted = (faultedState.setInt 1 9).faulted ∧ faultedState.faulted = true ∧
    (∀ r, (Instr.senc 1 0).reads r = true → (withI 5).same ((withI 5).setInt 1 9) r) ∧
    exec (.senc 1 0) (withI 5) = .next (after (.senc 1 0) (withI 5)) ∧
    exec (.senc 1 0) ((withI 5).setInt 1 9) = .next (after (.senc 1 0) ((withI 5).setInt 1 9)) := by
  refine ⟨by simp, by simp [State.faulted], by decide +kernel, by decide +kernel, by decide +kernel, fun r h => ?_, exec_answers _ _, exec_answers _ _⟩
  cases r <;> try simp only [Instr.reads, Bool.false_eq_true] at h
  obtain rfl := of_decide_eq_true h
  exact (State.getI_setInt _ _ _ _).trans (if_neg (by decide))

theorem witness_EarlierOutcomeIsForgotten : (withI 5).faulted = false := by decide

theorem witness_OrderAndWordSizeChangeNoResult : params32.V = (withI 5).params.V ∧ params32.P = (withI 5).params.P ∧
    params32.order ≠ (withI 5).params.order ∧ exec (.fenc 0 0) (withI 5) = .next (after (.fenc 0 0) (withI 5)) :=
  ⟨rfl, rfl, by decide, exec_answers _ _⟩

/-- One state or command for each check that can apply, and one that passes them all. -/
theorem witness_OutcomeIsTheFirstFailingCheck :
    faultedState.faulted = true ∧ (withI 5).faulted = false ∧ (decode 0x12000000#32).toBool = false ∧
    (Instr.qdec 0 0 1).wellFormed = false ∧
    (Instr.ug1.lengthFails (withI 5)) ∧
    ((Instr.senc 1 0).widthFails (withI (2 ^ 256)) ∧ ¬ (Instr.senc 1 0).lengthFails (withI (2 ^ 256))) ∧
    ((Instr.fdec 2 1).digitsFail (State.reset.setF 1 badDigit) ∧ ¬ (Instr.fdec 2 1).lengthFails (State.reset.setF 1 badDigit) ∧
      ¬ (Instr.fdec 2 1).widthFails (State.reset.setF 1 badDigit)) ∧
    (¬ (Instr.nop).lengthFails (withI 5) ∧ ¬ (Instr.nop).widthFails (withI 5) ∧ ¬ (Instr.nop).digitsFail (withI 5)) := by
  refine ⟨by decide, by decide, by decide, by decide, ⟨64, rfl, by decide⟩, ⟨⟨1, 0, rfl, by decide +kernel⟩, ?_⟩, ⟨?_, ?_, ?_⟩, ?_, ?_, ?_⟩
  · simp [Instr.lengthFails, Instr.wantsLength]
  · refine Or.inr ⟨_, List.mem_singleton.2 rfl, fun h => ?_⟩
    exact absurd (h 0).2 (by decide +kernel)
  · simp [Instr.lengthFails, Instr.wantsLength]
  · simp [Instr.widthFails]
  · simp [Instr.lengthFails, Instr.wantsLength]
  · simp [Instr.widthFails]
  · simp [Instr.digitsFail, Instr.encodes, Instr.decodes]

/-- The two causes: an integer to encode, and a digit to decode. -/
theorem witness_ContractViolationTakesTheFault :
    ((withI firstBad).faulted = false ∧ (Instr.fenc 0 0).wellFormed = true ∧ ¬ (Instr.fenc 0 0).lengthFails (withI firstBad) ∧
      (Instr.fenc 0 0).digitsFail (withI firstBad)) ∧
    ((State.reset.setF 1 badDigit).faulted = false ∧ Instr.mg1.wellFormed = true ∧
      ¬ Instr.mg1.lengthFails (State.reset.setF 1 badDigit) ∧ Instr.mg1.digitsFail (State.reset.setF 1 badDigit)) := by
  refine ⟨⟨by decide +kernel, by decide, ?_, Or.inl ⟨_, List.mem_singleton.2 rfl, ?_⟩⟩, by decide +kernel, by decide, ?_, ?_⟩
  · simp [Instr.lengthFails, Instr.wantsLength]
  · show ¬ digitOf _ _ _ ≤ _
    decide +kernel
  · simp [Instr.lengthFails, Instr.wantsLength]
  · refine Or.inr ⟨fieldDigits ((State.reset.setF 1 badDigit).getF 1), by simp [Instr.decodes], fun h => ?_⟩
    exact absurd (h 0).2 (by decide +kernel)

theorem witness_ExpressibleRequestsAreServed : ∀ r ∈ [Request.read 0x1FFC 4, .write 0 4 1, .reset],
    ∀ q rest, (asking (withI 5) [r]).port = q :: rest → q.expressible := by
  intro r h q rest hq
  cases hq
  fin_cases h <;> simp [Request.expressible]

theorem witness_NopOnlyClearsTheCode : (withI 5).faulted = false ∧ faultedState.faulted = true := by decide

theorem witness_Senc : (withI 0).faulted = false ∧ ((withI (2 ^ 256 - 1)).getI 0).toNat < 2 ^ 256 ∧
    2 ^ 256 ≤ ((withI (2 ^ 256)).getI 0).toNat := by decide +kernel

/-- `P - 1` is reduced, and the last integer with digit 11 in range is representable though far from reduced. -/
theorem witness_FencWritesTheDigits : (withI (pDef - 1)).faulted = false ∧
    ((withI (pDef - 1)).getI 0).toNat < (withI (pDef - 1)).params.P ∧
    representable Params.default ((withI (firstBad - 1)).getI 0).toNat := by
  refine ⟨by decide +kernel, by decide +kernel, ?_⟩
  show digitOf _ _ _ ≤ _
  decide +kernel

/-- Every digit at the end of its range. -/
theorem witness_ranged : ranged (fieldDigits (unit 0x20000000000000)) ∧ ranged (fieldDigits (unit (-0x20000000000000))) ∧
    ranged (digitsA (ilv (unit (-1)) zeroField)) ∧ ranged (digitsB (ilv zeroField (unit (-1)))) := by
  refine ⟨?_, ?_, ?_, ?_⟩ <;> · unfold ranged; decide +kernel

theorem witness_FdecGivesTheReducedSum : (State.reset.setF 1 (unit (-1))).faulted = false ∧
    ranged (fieldDigits ((State.reset.setF 1 (unit (-1))).getF 1)) := by
  refine ⟨by decide +kernel, ?_⟩
  unfold ranged
  decide +kernel

/-- `x = 6V` and its only vector in the ranges of the division. -/
theorem witness_BaseFieldRoundTrip : 11208198 < Params.default.P ∧
    (∀ k : Fin 12, k < 11 → 0 ≤ (#v[0, 1, 0, 0, 0, 0, 0, 0, 0, 0, 0, 0] : DigitVec)[k] ∧
      (#v[0, 1, 0, 0, 0, 0, 0, 0, 0, 0, 0, 0] : DigitVec)[k]
        < (if k = 0 ∨ k = 6 then 6 * Params.default.V else Params.default.V : Nat)) ∧
    (∑ k : Fin 12, (#v[0, 1, 0, 0, 0, 0, 0, 0, 0, 0, 0, 0] : DigitVec)[k] * (weight Params.default.V k.val : Int))
      = (11208198 : Nat) := by decide +kernel

/-- The largest reduced input (T25). -/
theorem witness_CanonicalDigitRanges : pDef - 1 < Params.default.P ∧
    fenc Params.default (pDef - 1) = some #v[0, 0, 0, 1, 0, 0, 4, 0, 0, 1, 0, 1868033] := by decide +kernel

/-- The first failing input and `P` itself (T26). -/
theorem witness_UnreducedIntegerIsEncoded : fenc Params.default firstBad = none ∧ Params.default.P ≤ pDef ∧
    fenc Params.default pDef = some #v[1, 0, 0, 1, 0, 0, 4, 0, 0, 1, 0, 1868033] := by decide +kernel

theorem witness_QilvInterleaves : (State.reset.setF 0 badDigit).faulted = false := by decide +kernel

theorem witness_QdilDeinterleaves : pointG2.faulted = false ∧ (2 : FReg) ≠ 3 := by decide +kernel

theorem witness_QencEncodesBoth : (withI (firstBad - 1)).faulted = false ∧
    representable Params.default ((withI (firstBad - 1)).getI 0).toNat ∧
    representable Params.default ((withI (firstBad - 1)).getI 1).toNat := by
  refine ⟨by decide +kernel, ?_, ?_⟩ <;> · show digitOf _ _ _ ≤ _; decide +kernel

theorem witness_QdecDecodesBoth : pointG2.faulted = false ∧ (0 : IReg) ≠ 1 ∧ ranged (digitsA (pointG2.getQ 0)) ∧
    ranged (digitsB (pointG2.getQ 0)) := by
  refine ⟨by decide +kernel, by decide, ?_, ?_⟩ <;> · unfold ranged; decide +kernel

theorem witness_QuadraticRoundTrip : (withI (pDef - 1)).faulted = false ∧ (2 : IReg) ≠ 3 ∧
    ((withI (pDef - 1)).getI 0).toNat < (withI (pDef - 1)).params.P ∧
    ((withI (pDef - 1)).getI 1).toNat < (withI (pDef - 1)).params.P := by decide +kernel

theorem witness_SameDestinationIsIllegal : (withI 5).faulted = false := by decide

theorem witness_ByteFunctionsAreInverse : 2 ^ 256 - 1 < 2 ^ 256 ∧ (List.replicate 32 (0xFF : Byte)).length = 32 ∧
    0 < (be32 (2 ^ 256 - 1)).length := by decide +kernel

theorem witness_FtobWritesTheElement : (State.reset.setF 0 (unit (-1))).faulted = false ∧
    ranged (fieldDigits ((State.reset.setF 0 (unit (-1))).getF 0)) := by
  refine ⟨by decide +kernel, ?_⟩
  unfold ranged
  decide +kernel

theorem witness_BtofReadsTheElement : (withBytes 11 (2 ^ 256 - 1) 0).faulted = false ∧
    representable Params.default ((withBytes 11 (2 ^ 256 - 1) 0).elemValue 11) := by
  refine ⟨by decide +kernel, ?_⟩
  show digitOf _ _ _ ≤ _
  decide +kernel

/-- The three cases where they meet: `P - 1`, `P`, and a vector in range. -/
theorem witness_ByteRoundTrips : (withBytes 11 (pDef - 1) 0).faulted = false ∧ (withBytes 11 pDef 0).faulted = false ∧
    (withBytes 11 (pDef - 1) 0).elemValue 11 < (withBytes 11 (pDef - 1) 0).params.P ∧
    (withBytes 11 pDef 0).params.P ≤ (withBytes 11 pDef 0).elemValue 11 ∧
    representable Params.default ((withBytes 11 pDef 0).elemValue 11) ∧
    ranged (fieldDigits (pointG1.getF 1)) := by
  refine ⟨by decide +kernel, by decide +kernel, by decide +kernel, by decide +kernel, ?_, ?_⟩
  · show digitOf _ _ _ ≤ _
    decide +kernel
  · unfold ranged
    decide +kernel

theorem witness_Mg1WritesThePoint : pointG1.faulted = false ∧ ranged (fieldDigits (pointG1.getF 0)) ∧
    ranged (fieldDigits (pointG1.getF 1)) := by
  refine ⟨by decide +kernel, ?_, ?_⟩ <;> · unfold ranged; decide +kernel

theorem witness_Mg2WritesThePoint : pointG2.faulted = false ∧
    ∀ j : QReg, j.val < 2 → ranged (digitsA (pointG2.getQ j)) ∧ ranged (digitsB (pointG2.getQ j)) := by
  refine ⟨by decide +kernel, ?_⟩
  unfold ranged
  decide +kernel

theorem witness_MgtWritesTheElement : elementGT.faulted = false ∧
    ∀ j : QReg, ranged (digitsA (elementGT.getQ j)) ∧ ranged (digitsB (elementGT.getQ j)) := by
  refine ⟨by decide +kernel, ?_⟩
  unfold ranged
  decide +kernel

theorem witness_Ug1ReadsThePoint : (withBytes 1 (2 ^ 256 - 1) 64).faulted = false ∧ (withBytes 1 (2 ^ 256 - 1) 64).blen = 64 ∧
    representable Params.default ((withBytes 1 (2 ^ 256 - 1) 64).elemValue 0) ∧
    representable Params.default ((withBytes 1 (2 ^ 256 - 1) 64).elemValue 1) := by
  refine ⟨by decide +kernel, by decide, ?_, ?_⟩ <;> · show digitOf _ _ _ ≤ _; decide +kernel

theorem witness_Ug2ReadsThePoint : (withBytes 3 9 128).faulted = false ∧ (withBytes 3 9 128).blen = 128 ∧
    ∀ n, n < 4 → representable Params.default ((withBytes 3 9 128).elemValue n) := by
  refine ⟨by decide +kernel, by decide, ?_⟩
  unfold representable
  decide +kernel

theorem witness_UgtReadsTheElement : (withBytes 11 7 384).faulted = false ∧ (withBytes 11 7 384).blen = 384 ∧
    ∀ n, n < 12 → representable Params.default ((withBytes 11 7 384).elemValue n) := by
  refine ⟨by decide +kernel, by decide, ?_⟩
  unfold representable
  decide +kernel

/-- One byte short, one byte long, the length of another type (R162). -/
theorem witness_WrongLengthSignals : (withBytes 0 0 63).faulted = false ∧ (withBytes 0 0 63).blen ≠ 64 ∧
    (withBytes 0 0 129).blen ≠ 128 ∧ (withBytes 0 0 128).blen ≠ 384 := by decide +kernel

theorem witness_MarshalIsIdempotent :
    (pointG1.faulted = false ∧ exec .mg1 pointG1 = .next (after .mg1 pointG1) ∧ (after .mg1 pointG1).code = Code.ok.num) ∧
    (pointG2.faulted = false ∧ exec .mg2 pointG2 = .next (after .mg2 pointG2) ∧ (after .mg2 pointG2).code = Code.ok.num) ∧
    (elementGT.faulted = false ∧ exec .mgt elementGT = .next (after .mgt elementGT) ∧
      (after .mgt elementGT).code = Code.ok.num) :=
  ⟨⟨by decide +kernel, exec_answers _ _, by decide +kernel⟩, ⟨by decide +kernel, exec_answers _ _, by decide +kernel⟩,
    by decide +kernel, exec_answers _ _, by decide +kernel⟩

end Sys2Proof.Machine.Tests
end

/-! ### O25: the parameters no command reads (spec 00_scope R6, 40_scalar_codec R91)

Replacing the parameter set by one with the same `V` and `P` commutes with everything a command is built from: the
register reads do not see it, the writes do not touch it, and the codec functions read only `V` and `P` of it. So it
commutes with the rule of each command, and with the step that runs the rule. -/

namespace Sys2Proof.Machine

/-- The same state under another parameter set. -/
def State.withParams (s : State) (p : Params) : State := { s with params := p }

/-- The same ending, with the parameter set of the state it carries replaced. -/
def Ending.withParams (e : Ending) (p : Params) : Ending :=
  match e with
  | .ok t => .ok (t.withParams p)
  | .lengthMismatch => .lengthMismatch
  | .encodingOverflow => .encodingOverflow
  | .illegalCommand => .illegalCommand
  | .contractViolation => .contractViolation

section StateUnderOtherParams

variable (s : State) (p : Params)

@[simp] theorem State.withParams_params : (s.withParams p).params = p := rfl
@[simp] theorem State.withParams_buf : (s.withParams p).buf = s.buf := rfl
@[simp] theorem State.withParams_blen : (s.withParams p).blen = s.blen := rfl
@[simp] theorem State.faulted_withParams : (s.withParams p).faulted = s.faulted := rfl
@[simp] theorem State.getI_withParams (i : IReg) : (s.withParams p).getI i = s.getI i := rfl
@[simp] theorem State.getS_withParams (i : SReg) : (s.withParams p).getS i = s.getS i := rfl
@[simp] theorem State.getF_withParams (i : FReg) : (s.withParams p).getF i = s.getF i := rfl
@[simp] theorem State.getQ_withParams (i : QReg) : (s.withParams p).getQ i = s.getQ i := rfl
@[simp] theorem State.readElem_withParams (k : Nat) : (s.withParams p).readElem k = s.readElem k := rfl

@[simp] theorem State.withParams_setInt (i : IReg) (x : Nat) :
    (s.setInt i x).withParams p = (s.withParams p).setInt i x := rfl
@[simp] theorem State.withParams_setS (i : SReg) (v : ScalarReg) :
    (s.setS i v).withParams p = (s.withParams p).setS i v := rfl
@[simp] theorem State.withParams_setF (i : FReg) (v : FieldReg) :
    (s.setF i v).withParams p = (s.withParams p).setF i v := rfl
@[simp] theorem State.withParams_setQ (i : QReg) (v : QuadReg) :
    (s.setQ i v).withParams p = (s.withParams p).setQ i v := rfl
@[simp] theorem State.withParams_setBuf (m : Memory) :
    (s.setBuf m).withParams p = (s.withParams p).setBuf m := rfl
@[simp] theorem State.withParams_setBlen (n : BusWord) :
    (s.setBlen n).withParams p = (s.withParams p).setBlen n := rfl

@[simp] theorem Ending.withParams_ok : (Ending.ok s).withParams p = .ok (s.withParams p) := rfl
@[simp] theorem Ending.withParams_lengthMismatch : Ending.lengthMismatch.withParams p = .lengthMismatch := rfl
@[simp] theorem Ending.withParams_encodingOverflow : Ending.encodingOverflow.withParams p = .encodingOverflow := rfl
@[simp] theorem Ending.withParams_illegalCommand : Ending.illegalCommand.withParams p = .illegalCommand := rfl

@[simp] theorem Ending.withParams_ofChecked (o : Option State) :
    (Ending.ofChecked o).withParams p = .ofChecked (o.map fun t => t.withParams p) := by
  cases o <;> rfl

@[simp] theorem Ending.withParams_ite (c : Prop) [Decidable c] (e e' : Ending) :
    (if c then e else e').withParams p = if c then e.withParams p else e'.withParams p :=
  apply_ite (fun e : Ending => e.withParams p) c e e'

/-- Every way a command can end writes its registers and `STATUS` and leaves the parameters alone (R80). -/
theorem State.conclude_withParams (e : Ending) :
    (s.withParams p).conclude (e.withParams p) = (s.conclude e).withParams p := by
  cases e <;> rfl

end StateUnderOtherParams

section CodecReadsVAndP

variable {p q : Params}

theorem fencReg_congr (hV : p.V = q.V) (x : Nat) : fencReg p x = fencReg q x := by
  simp only [fencReg, fenc, hV]

theorem fencPair_congr (hV : p.V = q.V) (a b : Nat) : fencPair p a b = fencPair q a b := by
  simp only [fencPair, fencReg_congr hV]

theorem fdecReg_congr (hV : p.V = q.V) (hP : p.P = q.P) (r : FieldReg) : fdecReg p r = fdecReg q r := by
  simp only [fdecReg, fdec, fval, hV, hP]

theorem fdecAll_congr (hV : p.V = q.V) (hP : p.P = q.P) (rs : List FieldReg) : fdecAll p rs = fdecAll q rs := by
  induction rs with
  | nil => rfl
  | cons r rs ih => rw [fdecAll_cons, fdecAll_cons, fdecReg_congr hV hP, ih]

end CodecReadsVAndP

section RulesUnderOtherParams

variable {s : State} {p : Params}

theorem State.fencElem_withParams (hV : p.V = s.params.V) (k : Nat) :
    (s.withParams p).fencElem k = s.fencElem k := fencReg_congr hV _

theorem State.fencElemPair_withParams (hV : p.V = s.params.V) (j : Nat) :
    (s.withParams p).fencElemPair j = s.fencElemPair j := fencPair_congr hV _ _

theorem State.marshal_withParams (hV : p.V = s.params.V) (hP : p.P = s.params.P) (rs : List FieldReg) (len : BusWord) :
    (s.withParams p).marshal rs len = (s.marshal rs len).withParams p := by
  simp [State.marshal, fdecAll_congr hV hP, Function.comp_def]

/-- No rule reads `ORDER` or `WORD_BITS`: the scalar, interleaving and system rules read no parameter at all, the encoding
rules read `V`, the decoding rules `V` and `P` (R6, R91). -/
theorem ruleOf_withParams (hV : p.V = s.params.V) (hP : p.P = s.params.P) (i : Instr) :
    ruleOf i (s.withParams p) = (ruleOf i s).withParams p := by
  cases i with
  | nop => rfl
  | senc d r => simp [ruleOf, sencRule]
  | sdec d r => simp [ruleOf, sdecRule]
  | fenc d r => simp [ruleOf, fencRule, fencReg_congr hV, Function.comp_def]
  | fdec d r => simp [ruleOf, fdecRule, fdecReg_congr hV hP, Function.comp_def]
  | qilv d a b => simp [ruleOf, qilvRule]
  | qdil a b r => simp [ruleOf, qdilRule]
  | qenc d a b => simp [ruleOf, qencRule, fencPair_congr hV, Function.comp_def]
  | qdec a b r => simp [ruleOf, qdecRule, fdecReg_congr hV hP, Function.comp_def]
  | ftob r k => simp [ruleOf, ftobRule, fdecReg_congr hV hP, Function.comp_def]
  | btof d k => simp [ruleOf, btofRule, State.fencElem_withParams hV, Function.comp_def]
  | mg1 => exact State.marshal_withParams hV hP _ _
  | ug1 => simp [ruleOf, ug1Rule, State.fencElem_withParams hV, Function.comp_def]
  | mg2 => exact State.marshal_withParams hV hP _ _
  | ug2 => simp [ruleOf, ug2Rule, State.fencElemPair_withParams hV, Function.comp_def]
  | mgt => exact State.marshal_withParams hV hP _ _
  | ugt => simp [ruleOf, ugtRule, State.fencElemPair_withParams hV, Function.comp_def]

end RulesUnderOtherParams

/-- Settles O25: the fault state ignores the command under either parameter set, and outside it the command ends as its
rule does, which commutes with the change of the parameters. -/
theorem orderAndWordSizeChangeNoResult : Obligations.OrderAndWordSizeChangeNoResult := by
  intro i s t p hV hP h
  change exec i (s.withParams p) = .next (t.withParams p)
  rw [exec_eq] at h ⊢
  obtain ⟨hf, rfl⟩ | ⟨hf, rfl⟩ := State.command_cases s t (ruleOf i) h
  · exact ((t.withParams p).command_eq (ruleOf i)).1 hf
  · rw [((s.withParams p).command_eq (ruleOf i)).2 hf, ruleOf_withParams hV hP, State.conclude_withParams]

end Sys2Proof.Machine

/-! ### The frame of a command's rule

What a rule that ends `OK` did to the state is a chain of register writes. `State.WritesOnly` says what such a chain
leaves alone; it has one lemma per register write, and `Ending.WritesOnly` carries it through the checks of a rule. The
statements about commands and steps (O18, O20, O21) read what they need from it. -/

namespace Sys2Proof.Machine

/-- What register writes inside `touched` leave alone: everything `keepsBut` names, `STATUS`, and the canonical form of
the buffer. -/
structure State.WritesOnly (s t : State) (touched : Reg → Prop) : Prop where
  keeps : s.keepsBut t touched
  status : t.status = s.status
  wf : s.buf.wf = true → t.buf.wf = true

/-- An ending that is `OK` has written only inside `touched`. -/
def Ending.WritesOnly (s : State) (touched : Reg → Prop) (e : Ending) : Prop :=
  ∀ t, e = .ok t → s.WritesOnly t touched

theorem State.keepsBut_refl (s : State) (touched : Reg → Prop) : s.keepsBut s touched :=
  ⟨fun r _ => by cases r <;> rfl, rfl, rfl, rfl, rfl⟩

/-- Writing `STATUS.CODE` touches no register. -/
theorem State.keepsBut_setCode {s t : State} {touched : Reg → Prop} (h : s.keepsBut t touched) (c : Code) :
    s.keepsBut (t.setCode c) touched := by
  obtain ⟨hsame, hrest⟩ := h
  exact ⟨fun r hr => by cases r <;> exact hsame _ hr, hrest⟩

/-- Taking the fault touches no register. -/
theorem State.keepsBut_takeFault (s : State) (touched : Reg → Prop) : s.keepsBut s.takeFault touched :=
  ⟨fun r _ => by cases r <;> rfl, rfl, rfl, rfl, rfl⟩

section RegisterWrites

variable {s t : State} {touched : Reg → Prop}

theorem State.WritesOnly.refl (s : State) : s.WritesOnly s touched := ⟨s.keepsBut_refl touched, rfl, id⟩

theorem State.WritesOnly.trans {u : State} (h : s.WritesOnly t touched) (h' : t.WritesOnly u touched) :
    s.WritesOnly u touched := by
  obtain ⟨⟨hsame, hparams, hport, hreplies, hdraws⟩, hstatus, hwf⟩ := h
  obtain ⟨⟨hsame', hparams', hport', hreplies', hdraws'⟩, hstatus', hwf'⟩ := h'
  refine ⟨⟨fun r hr => ?_, hparams'.trans hparams, hport'.trans hport, hreplies'.trans hreplies, hdraws'.trans hdraws⟩,
    hstatus'.trans hstatus, hwf' ∘ hwf⟩
  cases r <;> exact (hsame' _ hr).trans (hsame _ hr)

theorem State.WritesOnly.setInt (h : s.WritesOnly t touched) (i : IReg) (x : Nat) (hi : touched (.int i)) :
    s.WritesOnly (t.setInt i x) touched := by
  refine h.trans ⟨⟨fun r hr => ?_, rfl, rfl, rfl, rfl⟩, rfl, id⟩
  cases r with
  | int j => exact (t.getI_setInt i j x).trans (if_neg fun e : j = i => hr (e ▸ hi))
  | _ => rfl

theorem State.WritesOnly.setS (h : s.WritesOnly t touched) (i : SReg) (v : ScalarReg) (hi : touched (.scalar i)) :
    s.WritesOnly (t.setS i v) touched := by
  refine h.trans ⟨⟨fun r hr => ?_, rfl, rfl, rfl, rfl⟩, rfl, id⟩
  cases r with
  | scalar j => exact (t.getS_setS i j v).trans (if_neg fun e : j = i => hr (e ▸ hi))
  | _ => rfl

theorem State.WritesOnly.setF (h : s.WritesOnly t touched) (i : FReg) (v : FieldReg) (hi : touched (.field i)) :
    s.WritesOnly (t.setF i v) touched := by
  refine h.trans ⟨⟨fun r hr => ?_, rfl, rfl, rfl, rfl⟩, rfl, id⟩
  cases r with
  | field j => exact (t.getF_setF i j v).trans (if_neg fun e : j = i => hr (e ▸ hi))
  | _ => rfl

theorem State.WritesOnly.setQ (h : s.WritesOnly t touched) (i : QReg) (v : QuadReg) (hi : touched (.quad i)) :
    s.WritesOnly (t.setQ i v) touched := by
  refine h.trans ⟨⟨fun r hr => ?_, rfl, rfl, rfl, rfl⟩, rfl, id⟩
  cases r with
  | quad j => exact (t.getQ_setQ i j v).trans (if_neg fun e : j = i => hr (e ▸ hi))
  | _ => rfl

theorem State.WritesOnly.setBlen (h : s.WritesOnly t touched) (n : BusWord) (hn : touched .blen) :
    s.WritesOnly (t.setBlen n) touched := by
  refine h.trans ⟨⟨fun r hr => ?_, rfl, rfl, rfl, rfl⟩, rfl, id⟩
  cases r with
  | blen => exact absurd hn hr
  | _ => rfl

/-- A run of elements written inside the buffer touches the bytes of those elements. -/
theorem State.WritesOnly.writeElems (h : s.WritesOnly t touched) (a : Nat) (xs : List Nat)
    (hfit : a + 32 * xs.length ≤ bufBytes) (ha : ∀ b, a ≤ b → b < a + 32 * xs.length → touched (.byte b)) :
    s.WritesOnly (t.setBuf (t.buf.writeElems a xs)) touched := by
  refine h.trans ⟨⟨fun r hr => ?_, rfl, rfl, rfl, rfl⟩, rfl, Memory.wf_writeElems _ _ _ hfit⟩
  cases r with
  | byte b => exact (Memory.read_writeElems t.buf a b xs).trans (dif_neg fun hb => hr (ha b hb.1 hb.2))
  | _ => rfl

theorem Ending.WritesOnly.ok (h : s.WritesOnly t touched) : Ending.WritesOnly s touched (.ok t) := by
  rintro _ ⟨⟩
  exact h

/-- An ending that carries no state has written nothing. -/
theorem Ending.writesOnly_of_ne_ok {e : Ending} (h : ∀ t, e ≠ .ok t) : Ending.WritesOnly s touched e :=
  fun t ht => absurd ht (h t)

/-- A rule that signals under a condition writes what it writes otherwise. -/
theorem Ending.WritesOnly.ite {e e' : Ending} {c : Prop} [Decidable c] (he : ∀ t, e ≠ .ok t)
    (he' : Ending.WritesOnly s touched e') : Ending.WritesOnly s touched (if c then e else e') := by
  split
  · exact Ending.writesOnly_of_ne_ok he
  · exact he'

/-- A digit check that passes hands its value on; one that fails ends the command without a write (R164). -/
theorem Ending.WritesOnly.check {α : Type} {o : Option α} {f : α → Option State}
    (h : ∀ x, Ending.WritesOnly s touched (.ofChecked (f x))) : Ending.WritesOnly s touched (.ofChecked (o >>= f)) := by
  cases o with
  | none => exact Ending.writesOnly_of_ne_ok nofun
  | some x => exact h x

/-- A marshal writes the bytes of its elements and `BLEN` (R132, R134, R136). -/
theorem Ending.WritesOnly.marshal {rs : List FieldReg} {n : Nat} (hn : rs.length = n) (len : BusWord)
    (hfit : 32 * n ≤ bufBytes) (hbytes : ∀ b, b < 32 * n → touched (.byte b)) (hblen : touched .blen) :
    Ending.WritesOnly s touched (s.marshal rs len) := by
  subst hn
  by_cases hr : ∀ r ∈ rs, ranged (fieldDigits r)
  · rw [(s.marshal_eq rs len).1 hr]
    refine .ok (((State.WritesOnly.refl s).writeElems 0 _ ?_ fun b _ hb => hbytes b ?_).setBlen len hblen)
    · simpa using hfit
    · simpa using hb
  · rw [(s.marshal_eq rs len).2 hr]
    exact Ending.writesOnly_of_ne_ok nofun

end RegisterWrites

/-- The rule of each command writes only what its table `Instr.writes` names. -/
theorem ruleOf_writesOnly (i : Instr) (s : State) :
    Ending.WritesOnly s (fun r => i.writes r = true) (ruleOf i s) := by
  have start : s.WritesOnly s (fun r => i.writes r = true) := .refl s
  cases i with
  | nop => exact .ok start
  | senc d r => exact .ite nofun (.ok (start.setS d _ (decide_eq_true rfl)))
  | sdec d r => exact .ok (start.setInt d _ (decide_eq_true rfl))
  | fenc d r => exact .check fun D => .ok (start.setF d D (decide_eq_true rfl))
  | fdec d r => exact .check fun x => .ok (start.setInt d x (decide_eq_true rfl))
  | qilv d a b => exact .ok (start.setQ d _ (decide_eq_true rfl))
  | qdil a b r =>
    exact .ite nofun (.ok ((start.setF a _ (decide_eq_true (.inl rfl))).setF b _ (decide_eq_true (.inr rfl))))
  | qenc d a b => exact .check fun T => .ok (start.setQ d T (decide_eq_true rfl))
  | qdec a b r =>
    exact .ite nofun (.check fun xa => .check fun xb =>
      .ok ((start.setInt a xa (decide_eq_true (.inl rfl))).setInt b xb (decide_eq_true (.inr rfl))))
  | ftob r k =>
    refine .check fun x => .ok (start.writeElems (32 * k.val) [x] ?_ fun b h1 h2 => decide_eq_true ⟨h1, h2⟩)
    have := k.isLt
    simp only [List.length_singleton, bufBytes]
    omega
  | btof d k => exact .check fun D => .ok (start.setF d D (decide_eq_true rfl))
  | mg1 => exact .marshal (n := 2) rfl _ (by decide) (fun _ hb => decide_eq_true hb) rfl
  | ug1 =>
    exact .ite nofun (.check fun x => .check fun y =>
      .ok ((((start.setF 0 x rfl).setF 1 y rfl).setF 2 _ rfl).setF 3 _ rfl))
  | mg2 => exact .marshal (n := 4) rfl _ (by decide) (fun _ hb => decide_eq_true hb) rfl
  | ug2 =>
    exact .ite nofun (.check fun x => .check fun y =>
      .ok ((((start.setQ 0 x rfl).setQ 1 y rfl).setQ 2 _ rfl).setQ 3 _ rfl))
  | mgt => exact .marshal (n := 12) rfl _ (by decide) (fun _ hb => decide_eq_true hb) rfl
  | ugt =>
    exact .ite nofun (.check fun q0 => .check fun q1 => .check fun q2 => .check fun q3 => .check fun q4 => .check fun q5 =>
      .ok ((((((start.setQ 0 q0 rfl).setQ 1 q1 rfl).setQ 2 q2 rfl).setQ 3 q3 rfl).setQ 4 q4 rfl).setQ 5 q5 rfl))

/-- However a command ends, its conclusion touches only what its rule writes, and `STATUS` (R80, R167). -/
theorem State.conclude_keepsBut {s : State} {touched : Reg → Prop} {e : Ending} (h : Ending.WritesOnly s touched e) :
    s.keepsBut (s.conclude e) touched := by
  cases e with
  | ok t => exact State.keepsBut_setCode (h t rfl).keeps .ok
  | contractViolation => exact s.keepsBut_takeFault touched
  | lengthMismatch | encodingOverflow | illegalCommand =>
    exact State.keepsBut_setCode (s.keepsBut_refl touched) _

/-- Settles O21: in the fault state nothing changes, and outside it the command ends as its rule does. -/
theorem commandWritesOnlyItsRegisters : Obligations.CommandWritesOnlyItsRegisters := by
  intro i s t h
  rw [exec_eq] at h
  obtain ⟨-, rfl⟩ | ⟨-, rfl⟩ := State.command_cases s t (ruleOf i) h
  · exact t.keepsBut_refl _
  · exact State.conclude_keepsBut (ruleOf_writesOnly i s)

end Sys2Proof.Machine

/-! ### What every step keeps

A step serves one transaction: `step_cases` and `serve_cases` say what it can be, and `runWord_cases` what a word written
to `CMD` can do. The invariant of O18 and the constants of O20 then take one case for each kind of transaction. -/

namespace Sys2Proof.Machine

/-- With a transaction at hand the step serves it, on the state without it (R59). -/
theorem step_of_port {s : State} {r : Request} {rest : List Request} (h : s.port = r :: rest) :
    step s = serve r { s with port := rest } := by
  simp only [step, State.fetch, h]

/-- A step that answers a next state was idle, or served the host's first transaction (R59, R178). -/
theorem step_cases {s t : State} (h : step s = .next t) :
    t = s ∨ ∃ r rest, s.port = r :: rest ∧ serve r { s with port := rest } = .next t := by
  cases hp : s.port with
  | nil =>
    simp only [step, State.fetch, hp] at h
    cases h
    exact .inl rfl
  | cons r rest => exact .inr ⟨r, rest, rfl, step_of_port hp ▸ h⟩

/-- A word written to `CMD` is ignored in the fault state; else it concludes some ending that keeps to its writes, an
illegal word with nothing written (R80, R165, R168). -/
theorem runWord_cases {c : BusWord} {s t : State} (h : runWord c s = .next t) :
    t = s ∨ ∃ touched e, s.faulted = false ∧ Ending.WritesOnly s touched e ∧ t = s.conclude e := by
  obtain ⟨i, -, hrun⟩ | ⟨-, -, hrun⟩ := runWord_eq c s
  · obtain ⟨-, rfl⟩ | ⟨hf, rfl⟩ := State.command_cases s t _ (hrun ▸ h)
    · exact .inl rfl
    · exact .inr ⟨_, _, hf, ruleOf_writesOnly i s, rfl⟩
  · obtain ⟨-, rfl⟩ | ⟨hf, rfl⟩ := State.command_cases s t _ (hrun ▸ h)
    · exact .inl rfl
    · exact .inr ⟨fun _ => False, .illegalCommand, hf, Ending.writesOnly_of_ne_ok nofun, rfl⟩

/-- Outside the fault state a legal `STATUS` has nothing but its code, so writing `CODE` leaves exactly the number of the
code (R29, R168). -/
theorem statusSetCode_of_not_fault {w : BusWord} (h : legalStatus w) (hf : statusFault w = false) (c : Code) :
    statusSetCode w c = c.num.setWidth 32 := by
  obtain rfl | rfl | rfl | rfl | rfl := h
  case inr.inr.inr.inr => exact absurd hf (by decide)
  all_goals cases c <;> decide

theorem State.legal_setCode {s : State} (h : s.legal) (hf : s.faulted = false) {c : Code}
    (hc : c ≠ .contractViolation) : (s.setCode c).legal := by
  refine ⟨?_, h.2⟩
  rw [State.setCode_status, statusSetCode_of_not_fault h.1 hf]
  cases c with
  | contractViolation => exact absurd rfl hc
  | ok | lengthMismatch | encodingOverflow | illegalCommand => unfold legalStatus; decide

theorem State.legal_takeFault {s : State} (h : s.legal) (hf : s.faulted = false) : s.takeFault.legal := by
  refine ⟨?_, h.2⟩
  rw [State.takeFault_status, statusSetCode_of_not_fault h.1 hf]
  unfold legalStatus
  decide

/-- The end of a command keeps the state legal (R80, R164). -/
theorem State.legal_conclude {s : State} {touched : Reg → Prop} {e : Ending} (h : s.legal) (hf : s.faulted = false)
    (he : Ending.WritesOnly s touched e) : (s.conclude e).legal := by
  cases e with
  | ok t =>
    obtain ⟨-, hstatus, hwf⟩ := he t rfl
    have ht : t.legal := ⟨hstatus ▸ h.1, hwf h.2⟩
    have htf : t.faulted = false := by rw [State.faulted, hstatus]; exact hf
    exact State.legal_setCode ht htf nofun
  | contractViolation => exact State.legal_takeFault h hf
  | lengthMismatch | encodingOverflow | illegalCommand => exact State.legal_setCode h hf nofun

theorem State.legal_resetInput (s : State) : s.resetInput.legal :=
  ⟨.inl rfl, s.resetInput_buf ▸ Memory.wf_drawn s.draws⟩

theorem State.legal_writeTarget {s : State} (h : s.legal) (t : Target) (v : BusWord) : (s.writeTarget t v).legal :=
  ⟨(s.writeTarget_frame t v).1 ▸ h.1, s.writeTarget_wf t v h.2⟩

/-- Serving any transaction keeps the state legal. -/
theorem serve_legal {r : Request} {s t : State} (h : s.legal) (hs : serve r s = .next t) : t.legal := by
  obtain ⟨-, rfl⟩ | ⟨off, -, -, -, rfl⟩ | ⟨off, v, -, -, -, ⟨-, hrun⟩ | ⟨-, rfl⟩⟩ := serve_cases r s t hs
  · exact s.legal_resetInput
  · exact h
  · obtain rfl | ⟨_, _, hf, he, rfl⟩ := runWord_cases hrun
    · exact h
    · exact State.legal_conclude h hf he
  · exact State.legal_writeTarget h _ v

/-- Serving any transaction keeps the constants (R21). -/
theorem serve_params {r : Request} {s t : State} (hs : serve r s = .next t) : t.params = s.params := by
  obtain ⟨-, rfl⟩ | ⟨off, -, -, -, rfl⟩ | ⟨off, v, -, -, -, ⟨-, hrun⟩ | ⟨-, rfl⟩⟩ := serve_cases r s t hs
  · exact s.resetInput_params
  · exact s.reply_params _
  · obtain rfl | ⟨_, _, -, he, rfl⟩ := runWord_cases hrun
    · rfl
    · obtain ⟨-, hparams, -⟩ := State.conclude_keepsBut he
      exact hparams
  · obtain ⟨-, hparams, -⟩ := s.writeTarget_frame (target off) v
    exact hparams

/-- Settles O18: taking the transaction off the host's list touches neither `STATUS` nor the buffer, and serving it keeps
the state legal. -/
theorem stepKeepsTheStateLegal : Obligations.StepKeepsTheStateLegal := by
  intro s t hs h
  obtain rfl | ⟨r, rest, -, hserve⟩ := step_cases h
  · exact hs
  · have hfetched : State.legal { s with port := rest } := hs
    exact serve_legal hfetched hserve

/-- Settles O19, by evaluation of the reset state. -/
theorem resetStateIsLegal : Obligations.ResetStateIsLegal := ⟨rfl, rfl, .inl rfl, rfl⟩

/-- Settles O20: the idle step keeps all state, and serving a transaction keeps the constants. -/
theorem constantsNeverChange : Obligations.ConstantsNeverChange := by
  intro s t h
  obtain rfl | ⟨r, rest, -, hserve⟩ := step_cases h
  · rfl
  · have hfetched : t.params = State.params { s with port := rest } := serve_params hserve
    exact hfetched

end Sys2Proof.Machine

/-! ### `CMD`, `ID` and `CFG` at the port, and the reset input (spec 10_state R30, R31, R38) -/

namespace Sys2Proof.Machine

/-- A 4-byte write to offset 0x008 runs its data as a command word (R31, R51). -/
theorem serve_write_cmd (c : BusWord) (s : State) : serve (.write 0x008 4 c) s = runWord c s := rfl

theorem runWord_of_decode {c : BusWord} {i : Instr} (h : decode c = .ok i) (s : State) : runWord c s = exec i s := by
  simp only [runWord, h]

/-- Settles O6. -/
theorem stepRunsTheDecodedCommand : Obligations.StepRunsTheDecodedCommand := by
  intro s c i rest hport hdec
  rw [step_of_port hport, serve_write_cmd, runWord_of_decode hdec]

/-- `CFG` depends on `WORD_BITS` alone (R30). -/
theorem cfgWord_eq (p : Params) :
    cfgWord p = match p.wordBits with
      | .w64 => 0x000C0440#32
      | .w32 => 0x000C0820#32 := by
  unfold cfgWord
  cases p.wordBits <;> rfl

/-- Settles O15: the two offsets are the targets `ID` and `CFG`, which hold constants and take no write. -/
theorem identityAndConfiguration : Obligations.IdentityAndConfiguration := by
  intro s v
  have hid : target 0x000 = .id := rfl
  have hcfg : target 0x004 = .cfg := rfl
  rw [hid, hcfg]
  refine ⟨rfl, fun hw => ?_, fun hw => ?_, rfl, rfl⟩
  · exact (cfgWord_eq s.params).trans (by rw [hw])
  · exact (cfgWord_eq s.params).trans (by rw [hw])

/-- Settles O17: the step serves the reset input. -/
theorem resetInputClearsStatus : Obligations.ResetInputClearsStatus := by
  intro s rest hport
  exact ⟨_, step_of_port hport, State.resetInput_status _, State.resetInput_blen _, State.resetInput_params _,
    State.resetInput_port _, State.resetInput_replies _⟩

end Sys2Proof.Machine

/-! ### The address map (spec 20_memory R51, R55)

`Target.offset` reads the map the other way, from what a word is to where it stands; `target` finds each target at its own
offset, and every aligned offset of the window is reserved or the offset of a target. What a statement asks of `target` at
an offset follows from these, without opening the map again. -/

namespace Sys2Proof.Machine

/-- The offset of the bus word a target stands for (R51); of the reserved offsets, the first. -/
def Target.offset : Target → Nat
  | .id => 0x000
  | .cfg => 0x004
  | .cmd => 0x008
  | .status => 0x00C
  | .blen => 0x010
  | .constV j => 0x020 + 4 * j.val
  | .constP j => 0x040 + 4 * j.val
  | .constOrder j => 0x060 + 4 * j.val
  | .int i j => 0x100 + 0x40 * i.val + 4 * j.val
  | .scalar i j => 0x200 + 0x20 * i.val + 4 * j.val
  | .field i j => 0x400 + 0x80 * i.val + 4 * j.val
  | .quad i j => 0x800 + 0x100 * i.val + 4 * j.val
  | .buffer m => 0x1000 + 4 * m.val
  | .reserved => 0x014

theorem target_offset (t : Target) : target t.offset = t := by
  cases t with
  | id | cfg | cmd | status | blen | reserved => rfl
  | constV j | constP j | constOrder j | buffer j =>
    unfold target Target.offset
    simp (disch := omega) only [if_neg, dif_neg, dif_pos]
    exact congrArg _ (Fin.ext (by dsimp only; omega))
  | int i j | scalar i j | field i j | quad i j =>
    unfold target Target.offset
    simp (disch := omega) only [if_neg, dif_neg, dif_pos]
    exact congrArg₂ _ (Fin.ext (by dsimp only; omega)) (Fin.ext (by dsimp only; omega))

/-- The reserved gaps behind the field and the quadratic registers, by remainder instead of by register. -/
theorem reservedOffset_iff (off : Nat) : reservedOffset off ↔
    (0x14 ≤ off ∧ off < 0x20) ∨ (0x28 ≤ off ∧ off < 0x40) ∨ (0x80 ≤ off ∧ off < 0x100) ∨ (0x240 ≤ off ∧ off < 0x400) ∨
    ((0x400 ≤ off ∧ off < 0x600) ∧ 0x60 ≤ (off - 0x400) % 0x80) ∨ (0x600 ≤ off ∧ off < 0x800) ∨
    ((0x800 ≤ off ∧ off < 0xE00) ∧ 0xC0 ≤ (off - 0x800) % 0x100) ∨ (0xE00 ≤ off ∧ off < 0x1000) ∨
    (0x1180 ≤ off ∧ off < 0x2000) := by
  have hfield : (∃ i, i < 4 ∧ 0x460 + 0x80 * i ≤ off ∧ off < 0x480 + 0x80 * i) ↔
      (0x400 ≤ off ∧ off < 0x600) ∧ 0x60 ≤ (off - 0x400) % 0x80 :=
    ⟨by rintro ⟨i, h⟩; omega, fun h => ⟨(off - 0x400) / 0x80, by omega⟩⟩
  have hquad : (∃ i, i < 6 ∧ 0x8C0 + 0x100 * i ≤ off ∧ off < 0x900 + 0x100 * i) ↔
      (0x800 ≤ off ∧ off < 0xE00) ∧ 0xC0 ≤ (off - 0x800) % 0x100 :=
    ⟨by rintro ⟨i, h⟩; omega, fun h => ⟨(off - 0x800) / 0x100, by omega⟩⟩
  rw [reservedOffset, hfield, hquad]

theorem target_of_reserved {off : Nat} (h : reservedOffset off) : target off = .reserved := by
  rw [reservedOffset_iff] at h
  unfold target targetLow
  obtain h | h | h | h | h | h | h | h | h := h <;> simp (disch := omega) only [if_pos, if_neg, dif_neg]

/-- Every word of the window is reserved or the word of some target. -/
theorem exists_offset_of_not_reserved {off : Nat} (hw : off < 0x2000) (ha : off % 4 = 0) (h : ¬ reservedOffset off) :
    ∃ t : Target, t.offset = off := by
  rw [reservedOffset_iff] at h
  obtain h | h | h | h | h | h | h | h | h : off < 0x14 ∨ (0x20 ≤ off ∧ off < 0x28) ∨ (0x40 ≤ off ∧ off < 0x60) ∨
    (0x60 ≤ off ∧ off < 0x80) ∨ (0x100 ≤ off ∧ off < 0x200) ∨ (0x200 ≤ off ∧ off < 0x240) ∨
    ((0x400 ≤ off ∧ off < 0x600) ∧ (off - 0x400) % 0x80 < 0x60) ∨
    ((0x800 ≤ off ∧ off < 0xE00) ∧ (off - 0x800) % 0x100 < 0xC0) ∨ (0x1000 ≤ off ∧ off < 0x1180) := by omega
  · obtain rfl | rfl | rfl | rfl | rfl : off = 0x000 ∨ off = 0x004 ∨ off = 0x008 ∨ off = 0x00C ∨ off = 0x010 := by omega
    exacts [⟨.id, rfl⟩, ⟨.cfg, rfl⟩, ⟨.cmd, rfl⟩, ⟨.status, rfl⟩, ⟨.blen, rfl⟩]
  · exact ⟨.constV ⟨(off - 0x20) / 4, by omega⟩, by dsimp only [Target.offset]; omega⟩
  · exact ⟨.constP ⟨(off - 0x40) / 4, by omega⟩, by dsimp only [Target.offset]; omega⟩
  · exact ⟨.constOrder ⟨(off - 0x60) / 4, by omega⟩, by dsimp only [Target.offset]; omega⟩
  · exact ⟨.int ⟨(off - 0x100) / 0x40, by omega⟩ ⟨(off - 0x100) % 0x40 / 4, by omega⟩,
      by dsimp only [Target.offset]; omega⟩
  · exact ⟨.scalar ⟨(off - 0x200) / 0x20, by omega⟩ ⟨(off - 0x200) % 0x20 / 4, by omega⟩,
      by dsimp only [Target.offset]; omega⟩
  · exact ⟨.field ⟨(off - 0x400) / 0x80, by omega⟩ ⟨(off - 0x400) % 0x80 / 4, by omega⟩,
      by dsimp only [Target.offset]; omega⟩
  · exact ⟨.quad ⟨(off - 0x800) / 0x100, by omega⟩ ⟨(off - 0x800) % 0x100 / 4, by omega⟩,
      by dsimp only [Target.offset]; omega⟩
  · exact ⟨.buffer ⟨(off - 0x1000) / 4, by omega⟩, by dsimp only [Target.offset]; omega⟩

theorem offset_target {off : Nat} (hw : off < 0x2000) (ha : off % 4 = 0) (h : ¬ reservedOffset off) :
    (target off).offset = off := by
  obtain ⟨t, rfl⟩ := exists_offset_of_not_reserved hw ha h
  rw [target_offset]

theorem target_eq_of_offset {off : Nat} {t : Target} (h : t.offset = off) : target off = t := h ▸ target_offset t

/-- A target that is not reserved stands at one offset of the window only. -/
theorem target_eq_iff {off : Nat} {t : Target} (hw : off < 0x2000) (ha : off % 4 = 0) (ht : t ≠ .reserved) :
    target off = t ↔ off = t.offset := by
  constructor
  · rintro rfl
    exact (offset_target hw ha fun hr => ht (target_of_reserved hr)).symm
  · exact fun h => target_eq_of_offset h.symm

theorem Target.writable_iff_offset (t : Target) :
    t.writable = true ↔ ¬ reservedOffset t.offset ∧ ¬ readOnlyOffset t.offset ∧ t.offset ≠ 0x008 := by
  rw [reservedOffset_iff, readOnlyOffset]
  cases t with
  | id | cfg | cmd | status | blen | reserved => decide
  | constV j | constP j | constOrder j =>
    simp only [Target.writable, Target.offset, Bool.false_eq_true, false_iff]
    omega
  | int i j | scalar i j | field i j | quad i j | buffer m =>
    simp only [Target.writable, Target.offset, true_iff]
    omega

/-- The words a host write changes: all but the reserved ones, the read-only ones and `CMD` (R51, R55). -/
theorem target_writable_iff {off : Nat} (hw : off < 0x2000) (ha : off % 4 = 0) :
    (target off).writable = true ↔ ¬ reservedOffset off ∧ ¬ readOnlyOffset off ∧ off ≠ 0x008 := by
  by_cases hr : reservedOffset off
  · simp [target_of_reserved hr, Target.writable, hr]
  · rw [Target.writable_iff_offset, offset_target hw ha hr]

end Sys2Proof.Machine

/-! ### Bus words of the registers and lanes of the buffer (spec 20_memory R53, R54) -/

namespace Sys2Proof.Machine

theorem busWord_toNat {n : Nat} (x : BitVec n) (j : Nat) : (busWord x j).toNat = x.toNat / 2 ^ (32 * j) % 2 ^ 32 := by
  rw [busWord, BitVec.extractLsb'_toNat, Nat.shiftRight_eq_div_pow]

theorem constWord_toNat (x j : Nat) : (constWord x j).toNat = x / 2 ^ (32 * j) % 2 ^ 32 := BitVec.toNat_ofNat _ _

/-- The constants window shows 256 bits, so the words of a constant are those of its residue (R21, R53). -/
theorem constWord_mod (x j : Nat) (hj : j < 8) : constWord (x % 2 ^ 256) j = constWord x j := by
  have hpow : 2 ^ 256 = 2 ^ (32 * j) * 2 ^ (256 - 32 * j) := by
    rw [← pow_add]
    congr 1
    omega
  apply BitVec.eq_of_toNat_eq
  rw [constWord_toNat, constWord_toNat, hpow, Nat.mod_mul_right_div_self,
    Nat.mod_mod_of_dvd _ (pow_dvd_pow 2 (by omega))]

/-- Bus word `2k` of a register of cells is the low half of cell `k` (R53). -/
theorem busWord_cell_low {n : Nat} (r : Vector Cell64 n) (k : Nat) (hk : k < n) (h : 2 * k / 2 < n) :
    (busWord r[2 * k / 2] (2 * k % 2)).toNat = r[k].toNat % 2 ^ 32 := by
  have hcell : 2 * k / 2 = k := by omega
  have hhalf : 2 * k % 2 = 0 := by omega
  simp [busWord_toNat, hcell, hhalf]

/-- Bus word `2k + 1` of a register of cells is the high half of cell `k` (R53). -/
theorem busWord_cell_high {n : Nat} (r : Vector Cell64 n) (k : Nat) (hk : k < n) (h : (2 * k + 1) / 2 < n) :
    (busWord r[(2 * k + 1) / 2] ((2 * k + 1) % 2)).toNat = r[k].toNat / 2 ^ 32 := by
  have hcell : (2 * k + 1) / 2 = k := by omega
  have hhalf : (2 * k + 1) % 2 = 1 := by omega
  have hlt := r[k].isLt
  simp only [busWord_toNat, hcell, hhalf]
  omega

/-- Bits [64m+63:64m] of `sval` are engine word `m` (R23). -/
theorem sval_div_mod (r : ScalarReg) (m : Nat) (hm : m < 4) : sval r / 2 ^ (64 * m) % 2 ^ 64 = r[m].toNat := by
  have h0 := r[0].isLt
  have h1 := r[1].isLt
  have h2 := r[2].isLt
  have h3 := r[3].isLt
  unfold sval
  interval_cases m <;> omega

/-- Bus word `j` of `sval` is the half `j % 2` of engine word `j / 2` (R53). -/
theorem busWord_sval (r : ScalarReg) (j : Nat) (hj : j < 8) :
    (busWord r[j / 2] (j % 2)).toNat = sval r / 2 ^ (32 * j) % 2 ^ 32 := by
  have hsplit : sval r / 2 ^ (32 * j) = sval r / 2 ^ (64 * (j / 2)) / 2 ^ (32 * (j % 2)) := by
    rw [Nat.div_div_eq_div_mul, ← pow_add]
    congr 2
    omega
  rw [busWord_toNat, hsplit, ← sval_div_mod r (j / 2) (by omega)]
  obtain h | h : j % 2 = 0 ∨ j % 2 = 1 := by omega
  all_goals
    rw [h]
    omega

/-- Bus word `j'` of a register of cells after bus word `j` was replaced: the new word, or what it was (R53). -/
theorem busWord_setCellWord {n : Nat} (r : Vector Cell64 n) (j j' : Nat) (v : BusWord) (h : j / 2 < n) (h' : j' / 2 < n) :
    busWord (setCellWord r j h v)[j' / 2] (j' % 2) = if j' = j then v else busWord r[j' / 2] (j' % 2) := by
  simp only [setCellWord, Vector.getElem_set]
  by_cases hc : j / 2 = j' / 2
  · simp only [hc, if_true]
    rw [busWord_setBusWord _ _ _ _ (by omega)]
    exact if_congr (by omega) rfl rfl
  · rw [if_neg hc, if_neg (by omega)]

/-- In a file of registers of cells, bus word `j` of register `i` replaced leaves every other bus word alone (R57). -/
theorem busWord_file_other {l n : Nat} (file : Fin l → Vector Cell64 n) {i i' : Fin l} {j j' : Nat} (v : BusWord)
    (hj : j / 2 < n) (hj' : j' / 2 < n) (h : i' = i → j' ≠ j) :
    busWord (if i' = i then setCellWord (file i) j hj v else file i')[j' / 2] (j' % 2)
      = busWord (file i')[j' / 2] (j' % 2) := by
  by_cases hi : i' = i
  · subst hi
    simp only [if_true, busWord_setCellWord, if_neg (h rfl)]
  · simp only [if_neg hi]

/-- Byte `n` of a bus word of the buffer is bits [8n+7:8n] of the word read (R54). -/
theorem bufferWord_lane (b : Memory) (m n : Nat) (hn : n < 4) :
    (bufferWord b m).toNat / 2 ^ (8 * n) % 2 ^ 8 = (b.read (4 * m + n)).toNat := by
  have h0 := (b.read (4 * m)).isLt
  have h1 := (b.read (4 * m + 1)).isLt
  have h2 := (b.read (4 * m + 2)).isLt
  have h3 := (b.read (4 * m + 3)).isLt
  rw [bufferWord, BitVec.toNat_ofNat]
  interval_cases n
  · rw [Nat.add_zero (4 * m)]
    omega
  all_goals omega

theorem bufferWord_congr {b b' : Memory} {m : Nat} (h : ∀ n, n < 4 → b.read (4 * m + n) = b'.read (4 * m + n)) :
    bufferWord b m = bufferWord b' m := by
  have h0 := h 0 (by omega)
  rw [Nat.add_zero] at h0
  rw [bufferWord, bufferWord, h0, h 1 (by omega), h 2 (by omega), h 3 (by omega)]

/-- Two bus words with the same four lanes are equal. -/
theorem eq_of_lanes {v w : BusWord} (h : ∀ n, n < 4 → v.toNat / 2 ^ (8 * n) % 2 ^ 8 = w.toNat / 2 ^ (8 * n) % 2 ^ 8) :
    v = w := by
  have h0 := h 0 (by omega)
  have h1 := h 1 (by omega)
  have h2 := h 2 (by omega)
  have h3 := h 3 (by omega)
  bv_omega

/-- A host write to bus word `m` of the buffer puts bits [8n+7:8n] into byte `4m + n` (R54). -/
theorem read_writeLanes_same (b : Memory) (m n : Nat) (v : BusWord) (hn : n < 4) :
    ((b.writeBytes (4 * m) (lanes v)).read (4 * m + n)).toNat = v.toNat / 2 ^ (8 * n) % 2 ^ 8 := by
  have hlane : 4 * m ≤ 4 * m + n ∧ 4 * m + n < 4 * m + (lanes v).length := by simp [lanes, hn]
  rw [Memory.read_writeBytes, dif_pos hlane]
  simp [lanes, Nat.shiftRight_eq_div_pow]

/-- A host write to bus word `m` of the buffer changes no byte outside that word (R54). -/
theorem read_writeLanes_other (b : Memory) (m a : Nat) (v : BusWord) (ha : a < 4 * m ∨ 4 * m + 4 ≤ a) :
    (b.writeBytes (4 * m) (lanes v)).read a = b.read a := by
  have hout : ¬ (4 * m ≤ a ∧ a < 4 * m + (lanes v).length) := by
    simp only [lanes, List.length_map, List.length_range]
    omega
  rw [Memory.read_writeBytes, dif_neg hout]

theorem bufferWord_writeLanes_same (b : Memory) (m : Nat) (v : BusWord) :
    bufferWord (b.writeBytes (4 * m) (lanes v)) m = v :=
  eq_of_lanes fun n hn => (bufferWord_lane _ m n hn).trans (read_writeLanes_same b m n v hn)

theorem bufferWord_writeLanes_other (b : Memory) {m m' : Nat} (v : BusWord) (h : m' ≠ m) :
    bufferWord (b.writeBytes (4 * m) (lanes v)) m' = bufferWord b m' :=
  bufferWord_congr fun n hn => read_writeLanes_other b m _ v (by omega)

/-- Settles O11: each offset is the offset of the register's target, whose word is `busWord` of the register, of a
cell of it, or `constWord` of the constant. -/
theorem registerWordsOnThePort : Obligations.RegisterWordsOnThePort := by
  intro s
  have hint (i : IReg) (j : Fin 16) : target (0x100 + 0x40 * i.val + 4 * j.val) = .int i j := target_offset (.int i j)
  have hscalar (i : SReg) (j : Fin 8) : target (0x200 + 0x20 * i.val + 4 * j.val) = .scalar i j :=
    target_offset (.scalar i j)
  refine ⟨fun i j => ?_, fun i j => ?_, fun i m => ⟨?_, ?_⟩, fun i k => ⟨?_, ?_⟩, fun i k => ⟨?_, ?_⟩, ⟨?_, ?_⟩,
    fun j => ⟨?_, ?_⟩⟩
  · rw [hint]
    exact busWord_toNat _ _
  · rw [hscalar]
    exact busWord_sval _ _ j.isLt
  · rw [target_eq_of_offset (t := .scalar i ⟨2 * m.val, by omega⟩) (by dsimp only [Target.offset]; omega)]
    exact busWord_cell_low _ _ m.isLt _
  · rw [target_eq_of_offset (t := .scalar i ⟨2 * m.val + 1, by omega⟩) (by dsimp only [Target.offset]; omega)]
    exact busWord_cell_high _ _ m.isLt _
  · rw [target_eq_of_offset (t := .field i ⟨2 * k.val, by omega⟩) (by dsimp only [Target.offset]; omega)]
    exact busWord_cell_low _ _ k.isLt _
  · rw [target_eq_of_offset (t := .field i ⟨2 * k.val + 1, by omega⟩) (by dsimp only [Target.offset]; omega)]
    exact busWord_cell_high _ _ k.isLt _
  · rw [target_eq_of_offset (t := .quad i ⟨2 * k.val, by omega⟩) (by dsimp only [Target.offset]; omega)]
    exact busWord_cell_low _ _ k.isLt _
  · rw [target_eq_of_offset (t := .quad i ⟨2 * k.val + 1, by omega⟩) (by dsimp only [Target.offset]; omega)]
    exact busWord_cell_high _ _ k.isLt _
  · have hV0 : target 0x020 = .constV 0 := rfl
    rw [hV0, State.readTarget, constWord_toNat, Fin.val_zero, Nat.mul_zero, Nat.pow_zero, Nat.div_one]
  · have hV1 : target 0x024 = .constV 1 := rfl
    have hfit := s.params.v_port
    rw [hV1, State.readTarget, constWord_toNat]
    exact Nat.mod_eq_of_lt (Nat.div_lt_of_lt_mul hfit)
  · have hP : target (0x040 + 4 * j.val) = .constP j := target_offset (.constP j)
    rw [hP, State.readTarget, constWord_mod _ _ j.isLt, constWord_toNat]
  · have horder : target (0x060 + 4 * j.val) = .constOrder j := target_offset (.constOrder j)
    rw [horder, State.readTarget, constWord_toNat]

/-- Settles O12: the word at `0x1000 + 4m` is bus word `m` of the buffer. -/
theorem bufferBytesOnThePort : Obligations.BufferBytesOnThePort := by
  intro s m n v
  have htarget : target (0x1000 + 4 * m.val) = .buffer m := target_offset (.buffer m)
  rw [htarget]
  exact ⟨bufferWord_lane s.buf m n n.isLt, read_writeLanes_same s.buf m n v n.isLt,
    fun a ha => read_writeLanes_other s.buf m a v ha⟩

end Sys2Proof.Machine

/-! ### Reads and writes of the host (spec 20_memory R52, R55, R57, R59) -/

namespace Sys2Proof.Machine

/-- What a read returns does not depend on the host's own lists (log 6, log 7). -/
theorem State.readTarget_hostLists (s : State) (port : List Request) (replies : List BusWord) (t : Target) :
    State.readTarget { s with port := port, replies := replies } t = s.readTarget t := by
  cases t <;> rfl

/-- A host write neither reads nor changes the host's list of transactions (log 6). -/
theorem State.writeTarget_withPort (s : State) (port : List Request) (t : Target) (v : BusWord) :
    State.writeTarget { s with port := port } t v = { s.writeTarget t v with port := port } := by
  cases t <;> rfl

/-- A write to a word that is not writable is ignored (R55). -/
theorem State.writeTarget_of_not_writable (s : State) {t : Target} (v : BusWord) (h : t.writable = false) :
    s.writeTarget t v = s := by
  cases t with
  | blen | int | scalar | field | quad | buffer => cases h
  | _ => rfl

/-- A writable word reads back as what was written to it (R57). -/
theorem State.readTarget_writeTarget_same (s : State) {t : Target} (v : BusWord) (h : t.writable = true) :
    (s.writeTarget t v).readTarget t = v := by
  cases t with
  | blen => rfl
  | int i j =>
    simp only [State.writeTarget, State.readTarget, State.getI_setI_same]
    rw [busWord_setBusWord _ _ _ _ (by omega), if_pos rfl]
  | scalar i j => simp only [State.writeTarget, State.readTarget, State.getS_setS_same, busWord_setCellWord, if_true]
  | field i j => simp only [State.writeTarget, State.readTarget, State.getF_setF_same, busWord_setCellWord, if_true]
  | quad i j => simp only [State.writeTarget, State.readTarget, State.getQ_setQ_same, busWord_setCellWord, if_true]
  | buffer m => exact bufferWord_writeLanes_same s.buf m v
  | id | cfg | cmd | status | constV | constP | constOrder | reserved => cases h

/-- A host write changes no other word of the window (R57). -/
theorem State.readTarget_writeTarget_other (s : State) {t t' : Target} (v : BusWord) (h : t' ≠ t) :
    (s.writeTarget t v).readTarget t' = s.readTarget t' := by
  cases t with
  | id | cfg | cmd | status | constV | constP | constOrder | reserved => rfl
  | blen =>
    cases t' with
    | blen => exact absurd rfl h
    | _ => rfl
  | int i j =>
    cases t' with
    | int i' j' =>
      simp only [State.writeTarget, State.readTarget, State.getI_setI]
      by_cases hi : i' = i
      · subst hi
        have hj : j'.val ≠ j.val := fun e => h (by rw [Fin.ext e])
        rw [if_pos rfl, busWord_setBusWord _ _ _ _ (by omega), if_neg hj]
      · rw [if_neg hi]
    | _ => rfl
  | scalar i j =>
    cases t' with
    | scalar i' j' =>
      simp only [State.writeTarget, State.readTarget, State.getS_setS]
      exact busWord_file_other s.getS v _ _ fun hi hj => h (by rw [hi, Fin.ext hj])
    | _ => rfl
  | field i j =>
    cases t' with
    | field i' j' =>
      simp only [State.writeTarget, State.readTarget, State.getF_setF]
      exact busWord_file_other s.getF v _ _ fun hi hj => h (by rw [hi, Fin.ext hj])
    | _ => rfl
  | quad i j =>
    cases t' with
    | quad i' j' =>
      simp only [State.writeTarget, State.readTarget, State.getQ_setQ]
      exact busWord_file_other s.getQ v _ _ fun hi hj => h (by rw [hi, Fin.ext hj])
    | _ => rfl
  | buffer m =>
    cases t' with
    | buffer m' => exact bufferWord_writeLanes_other s.buf v fun e => h (by rw [Fin.ext e])
    | _ => rfl

/-- A read of an aligned word of the window answers its word (R52, R57). -/
theorem serve_read {off : Nat} (hw : off < 0x2000) (ha : off % 4 = 0) (s : State) :
    serve (.read off 4) s = .next (s.reply (s.readTarget (target off))) := by
  obtain ⟨hin, hok⟩ := accessOk_of_expressible off 4 ⟨hw, ha, rfl⟩
  rw [serve, if_neg hin, if_pos hok]

/-- A write to an aligned word of the window writes the word behind it, or runs a command (R52, R57). -/
theorem serve_write {off : Nat} (hw : off < 0x2000) (ha : off % 4 = 0) (v : BusWord) (s : State) :
    serve (.write off 4 v) s = serveWrite (target off) v s := by
  obtain ⟨hin, hok⟩ := accessOk_of_expressible off 4 ⟨hw, ha, rfl⟩
  rw [serve, if_neg hin, if_pos hok]

/-- A read as a step: the reply is appended, and nothing else of the state but the host's list changes (R57). -/
theorem step_read {s : State} {off : Nat} {rest : List Request} (hw : off < 0x2000) (ha : off % 4 = 0)
    (hport : s.port = .read off 4 :: rest) :
    step s = .next { s with port := rest, replies := s.replies ++ [s.readTarget (target off)] } := by
  rw [step_of_port hport, serve_read hw ha, s.readTarget_hostLists rest s.replies]
  rfl

/-- A write as a step, anywhere but at `CMD` (R57). -/
theorem step_write {s : State} {off : Nat} {v : BusWord} {rest : List Request} (hw : off < 0x2000) (ha : off % 4 = 0)
    (hcmd : off ≠ 0x008) (hport : s.port = .write off 4 v :: rest) :
    step s = .next { s.writeTarget (target off) v with port := rest } := by
  have htarget : target off ≠ .cmd := fun e => hcmd ((target_eq_iff (t := .cmd) hw ha nofun).1 e)
  rw [step_of_port hport, serve_write hw ha, serveWrite, if_neg htarget, State.writeTarget_withPort]

/-- Every word written to `CMD` is answered with a next state, whether or not it is a command (R80, R165). -/
theorem exists_runWord_eq_next (c : BusWord) (s : State) : ∃ t, runWord c s = .next t := by
  have hcommand (rule : State → Ending) : ∃ t, s.command rule = .next t := by
    obtain ⟨hfaulted, hrun⟩ := s.command_eq rule
    cases hf : s.faulted with
    | true => exact ⟨_, hfaulted hf⟩
    | false => exact ⟨_, hrun hf⟩
  obtain ⟨i, -, h⟩ | ⟨-, -, h⟩ := runWord_eq c s
  all_goals
    rw [h]
    exact hcommand _

/-- Settles O13: the write leaves every other word alone, and its own word reads back as the data where it is writable. -/
theorem readAfterHostWrite : Obligations.ReadAfterHostWrite := by
  intro s off off' v rest hw ha hw' ha' hcmd hport
  obtain ⟨-, -, -, hreplies, -⟩ := s.writeTarget_frame (target off) v
  refine ⟨_, _, (s.writeTarget (target off) v).readTarget (target off'), step_write hw ha hcmd hport,
    step_read hw' ha' rfl, ?_, fun heq hres hro => ?_, fun hother => ?_⟩
  · simp only [hreplies, State.readTarget_hostLists]
  · subst heq
    exact s.readTarget_writeTarget_same v ((target_writable_iff hw ha).2 ⟨hres, hro, hcmd⟩)
  · by_cases hwritable : (target off).writable = true
    · obtain ⟨hres, hro, -⟩ := (target_writable_iff hw ha).1 hwritable
      have hne : off' ≠ off := by tauto
      have hnotres : target off ≠ .reserved := fun e => by rw [e] at hwritable; cases hwritable
      refine s.readTarget_writeTarget_other v fun e => hne ?_
      rw [(target_eq_iff hw' ha' hnotres).1 e, offset_target hw ha hres]
    · rw [s.writeTarget_of_not_writable v (eq_false_of_ne_true hwritable)]

/-- Settles O14: behind a reserved offset stands nothing to read or write, `CMD` reads 0, and a read-only word ignores the
write. -/
theorem reservedAndReadOnlyOffsets : Obligations.ReservedAndReadOnlyOffsets := by
  intro s off v rest hw ha
  refine ⟨fun hoff hport => ?_, fun hoff hport => ?_⟩
  · have hzero : s.readTarget (target off) = 0 := by
      obtain hres | rfl := hoff
      · rw [target_of_reserved hres]; rfl
      · rfl
    rw [step_read hw ha hport, hzero]
  · have hcmd : off ≠ 0x008 := by
      rw [reservedOffset, readOnlyOffset] at hoff
      omega
    have hignored : (target off).writable = false := by
      rw [← Bool.not_eq_true, target_writable_iff hw ha]
      tauto
    rw [step_write hw ha hcmd hport, s.writeTarget_of_not_writable v hignored]

/-- Settles O28: the idle step keeps the state, a read replies, a write to `CMD` runs its word, any other writes its word,
and the reset input resets. -/
theorem expressibleRequestsAreServed : Obligations.ExpressibleRequestsAreServed := by
  intro s h
  cases hport : s.port with
  | nil => exact ⟨s, by rw [step, State.fetch, hport]⟩
  | cons r rest =>
    have hr := h r rest hport
    rw [step_of_port hport]
    cases r with
    | reset => exact ⟨_, rfl⟩
    | read off size =>
      obtain ⟨hw, ha, rfl⟩ := hr
      exact ⟨_, serve_read hw ha _⟩
    | write off size v =>
      obtain ⟨hw, ha, rfl⟩ := hr
      rw [serve_write hw ha, serveWrite]
      split
      · exact exists_runWord_eq_next v _
      · exact ⟨_, rfl⟩

/-- Settles O10: the second read is answered on the state the first left, which differs from the state before only in the
host's lists. -/
theorem readsHaveNoSideEffect : Obligations.ReadsHaveNoSideEffect := by
  intro s off rest hw ha hport
  refine ⟨_, _, _, step_read hw ha hport, step_read hw ha rfl, rfl, ?_⟩
  rw [State.readTarget_hostLists, List.append_assoc]
  rfl

/-- Settles O16: the port looks at the window first, and at the alignment and the size inside it only. -/
theorem illFormedAccessesStop : Obligations.IllFormedAccessesStop := by
  intro s off size v rest hport
  refine ⟨fun hout => ?_, fun hin hbad => ?_⟩
  · obtain h | h := hport
    all_goals rw [step_of_port h, serve, if_pos hout]
  · have hrefused : ¬ accessOk off size = true := by
      simp only [accessOk, Bool.and_eq_true, decide_eq_true_eq]
      tauto
    obtain h | h := hport
    all_goals rw [step_of_port h, serve, if_neg (by omega), if_neg hrefused]

end Sys2Proof.Machine

/-! ### The fields of a command word (spec 30_encoding R71)

A word is its six fields: `pack` puts them together, and the operation the masks of R74 use acts on each alone. -/

namespace Sys2Proof.Machine

/-- The operand fields of a word hold these values, and `Z` is zero (R71). -/
structure HasFields (c : BusWord) (a b x k : Nat) : Prop where
  hz : fieldZ c = 0
  ha : fieldA c = a
  hb : fieldB c = b
  hc : fieldC c = x
  hk : fieldK c = k

/-- Each operand field of a word is below its limit, and `Z` is zero (R72, R73). -/
structure Within (c : BusWord) (a b x k : Nat) : Prop where
  hz : fieldZ c = 0
  ha : fieldA c < a
  hb : fieldB c < b
  hc : fieldC c < x
  hk : fieldK c < k

theorem fieldOpc_lt (c : BusWord) : fieldOpc c < 256 := Nat.mod_lt _ (by decide)
theorem fieldA_lt (c : BusWord) : fieldA c < 16 := Nat.mod_lt _ (by decide)
theorem fieldB_lt (c : BusWord) : fieldB c < 16 := Nat.mod_lt _ (by decide)
theorem fieldC_lt (c : BusWord) : fieldC c < 16 := Nat.mod_lt _ (by decide)
theorem fieldZ_lt (c : BusWord) : fieldZ c < 256 := Nat.mod_lt _ (by decide)
theorem fieldK_lt (c : BusWord) : fieldK c < 16 := Nat.mod_lt _ (by decide)

/-- A word is its fields: they leave no bit out. -/
theorem word_eq_iff {c d : BusWord} : c = d ↔ fieldOpc c = fieldOpc d ∧ fieldZ c = fieldZ d ∧ fieldA c = fieldA d ∧
    fieldB c = fieldB d ∧ fieldC c = fieldC d ∧ fieldK c = fieldK d := by
  constructor
  · rintro rfl
    simp only [and_self]
  · intro h
    apply BitVec.eq_of_toNat_eq
    simp only [fieldOpc, fieldA, fieldB, fieldC, fieldZ, fieldK, bits] at h
    omega

theorem hasFields_pack (opc : Nat) {a b x k : Nat} (ha : a < 16 := by omega) (hb : b < 16 := by omega)
    (hx : x < 16 := by omega) (hk : k < 16 := by omega) :
    HasFields (pack opc a b x k) a b x k := by
  constructor
  all_goals
    simp only [fieldA, fieldB, fieldC, fieldZ, fieldK, bits, pack, BitVec.toNat_ofNat]
    omega

theorem HasFields.pack_eq {c : BusWord} {a b x k opc : Nat} (h : HasFields c a b x k) (hopc : fieldOpc c = opc) :
    pack opc a b x k = c := by
  subst hopc
  obtain ⟨hz, rfl, rfl, rfl, rfl⟩ := h
  obtain ⟨hopc, hz'⟩ := Laws.pack_opc_z _ _ _ _ _ (fieldOpc_lt c) (fieldA_lt c) (fieldB_lt c) (fieldC_lt c) (fieldK_lt c)
  have h' := hasFields_pack (fieldOpc c) (fieldA_lt c) (fieldB_lt c) (fieldC_lt c) (fieldK_lt c)
  exact word_eq_iff.2 ⟨hopc, hz'.trans hz.symm, h'.ha, h'.hb, h'.hc, h'.hk⟩

theorem bits_and (c m : BusWord) (hi lo : Nat) : bits (c &&& m) hi lo = bits c hi lo &&& bits m hi lo := by
  simp only [bits, BitVec.toNat_and, ← Nat.shiftRight_eq_div_pow, Nat.shiftRight_and_distrib, Nat.and_mod_two_pow]

theorem fields_and (c m : BusWord) : fieldOpc (c &&& m) = fieldOpc c &&& fieldOpc m ∧
    fieldZ (c &&& m) = fieldZ c &&& fieldZ m ∧ fieldA (c &&& m) = fieldA c &&& fieldA m ∧
    fieldB (c &&& m) = fieldB c &&& fieldB m ∧ fieldC (c &&& m) = fieldC c &&& fieldC m ∧
    fieldK (c &&& m) = fieldK c &&& fieldK m :=
  ⟨bits_and c m 31 24, bits_and c m 11 4, bits_and c m 23 20, bits_and c m 19 16, bits_and c m 15 12, bits_and c m 3 0⟩

/-- The opcode of a command stands in `OPC` of its word (R74). -/
theorem fieldOpc_encode (i : Instr) : fieldOpc (encode i) = i.opcode := by
  have h : Laws.EncodingFields.Statement i := by
    cases i with
    | nop => exact Laws.EncodingFields.nop
    | senc d r => exact Laws.EncodingFields.senc d r
    | sdec d r => exact Laws.EncodingFields.sdec d r
    | fenc d r => exact Laws.EncodingFields.fenc d r
    | fdec d r => exact Laws.EncodingFields.fdec d r
    | qilv d a b => exact Laws.EncodingFields.qilv d a b
    | qdil a b r => exact Laws.EncodingFields.qdil a b r
    | qenc d a b => exact Laws.EncodingFields.qenc d a b
    | qdec a b r => exact Laws.EncodingFields.qdec a b r
    | ftob r k => exact Laws.EncodingFields.ftob r k
    | btof d k => exact Laws.EncodingFields.btof d k
    | mg1 => exact Laws.EncodingFields.mg1
    | ug1 => exact Laws.EncodingFields.ug1
    | mg2 => exact Laws.EncodingFields.mg2
    | ug2 => exact Laws.EncodingFields.ug2
    | mgt => exact Laws.EncodingFields.mgt
    | ugt => exact Laws.EncodingFields.ugt
  exact h.1

/-! ### The six formats (spec 30_encoding R72)

Each format accepts a word when its checks pass: said once as the commands it can answer, and once as the limits of the
fields under which it answers one. -/

theorem except_bind_eq_ok {ε α β : Type} {o : Except ε α} {f : α → Except ε β} {y : β} :
    (o >>= f) = .ok y ↔ ∃ x, o = .ok x ∧ f x = .ok y := by
  cases o with
  | error e => exact ⟨nofun, fun ⟨_, h, _⟩ => nomatch h⟩
  | ok x => exact ⟨fun h => ⟨x, rfl, h⟩, fun ⟨_, hx, h⟩ => by cases hx; exact h⟩

theorem needZ_eq_ok {c : BusWord} {u : Unit} : needZ c = .ok u ↔ fieldZ c = 0 := by
  rw [needZ]
  split <;> simp [*]

theorem unused_eq_ok {f : Nat} {u : Unit} : unused f = .ok u ↔ f = 0 := by
  rw [unused]
  split <;> simp [*]

theorem index_eq_ok {n f : Nat} {a : Fin n} : index n f = .ok a ↔ f = a := by
  rw [index]
  split
  · simp [Fin.ext_iff]
  · next hout => exact ⟨nofun, fun h => absurd (h ▸ a.isLt) hout⟩

theorem element_eq_ok {f : Nat} {k : Elem} : element f = .ok k ↔ f = k := by
  rw [element]
  split
  · simp [Fin.ext_iff]
  · next hout => exact ⟨nofun, fun h => absurd (h ▸ k.isLt) hout⟩

section

variable {c : BusWord} {i : Instr}

theorem formatZ0_eq_ok {j : Instr} : formatZ0 c j = .ok i ↔ HasFields c 0 0 0 0 ∧ j = i := by
  simp only [formatZ0, except_bind_eq_ok, needZ_eq_ok, unused_eq_ok, pure, Except.pure, Except.ok.injEq, exists_const]
  constructor
  · rintro ⟨hz, ha, hb, hc, hk, rfl⟩
    exact ⟨⟨hz, ha, hb, hc, hk⟩, rfl⟩
  · rintro ⟨⟨hz, ha, hb, hc, hk⟩, rfl⟩
    exact ⟨hz, ha, hb, hc, hk, rfl⟩

theorem formatD1S1_eq_ok {nA nB : Nat} {mk : Fin nA → Fin nB → Instr} :
    formatD1S1 c nA nB mk = .ok i ↔ ∃ (a : Fin nA) (b : Fin nB), HasFields c a b 0 0 ∧ mk a b = i := by
  simp only [formatD1S1, except_bind_eq_ok, needZ_eq_ok, unused_eq_ok, index_eq_ok, pure, Except.pure, Except.ok.injEq,
    exists_const]
  constructor
  · rintro ⟨hz, hc, hk, a, ha, b, hb, rfl⟩
    exact ⟨a, b, ⟨hz, ha, hb, hc, hk⟩, rfl⟩
  · rintro ⟨a, b, ⟨hz, ha, hb, hc, hk⟩, rfl⟩
    exact ⟨hz, hc, hk, a, ha, b, hb, rfl⟩

theorem formatD1S2_eq_ok {nA nB nC : Nat} {mk : Fin nA → Fin nB → Fin nC → Instr} :
    formatD1S2 c nA nB nC mk = .ok i ↔ ∃ (a : Fin nA) (b : Fin nB) (x : Fin nC), HasFields c a b x 0 ∧ mk a b x = i := by
  simp only [formatD1S2, except_bind_eq_ok, needZ_eq_ok, unused_eq_ok, index_eq_ok, pure, Except.pure, Except.ok.injEq,
    exists_const]
  constructor
  · rintro ⟨hz, hk, a, ha, b, hb, x, hc, rfl⟩
    exact ⟨a, b, x, ⟨hz, ha, hb, hc, hk⟩, rfl⟩
  · rintro ⟨a, b, x, ⟨hz, ha, hb, hc, hk⟩, rfl⟩
    exact ⟨hz, hk, a, ha, b, hb, x, hc, rfl⟩

theorem formatD2S1_eq_ok {nD nB : Nat} {mk : Fin nD → Fin nD → Fin nB → Instr} :
    formatD2S1 c nD nB mk = .ok i ↔ ∃ (a x : Fin nD) (b : Fin nB), HasFields c a b x 0 ∧ a ≠ x ∧ mk a x b = i := by
  simp only [formatD2S1, except_bind_eq_ok, needZ_eq_ok, unused_eq_ok, index_eq_ok, pure, Except.pure, exists_const]
  constructor
  · rintro ⟨hz, hk, a, ha, b, hb, x, hc, h⟩
    split at h
    · cases h
    · next hne => exact ⟨a, x, b, ⟨hz, ha, hb, hc, hk⟩, hne, Except.ok.inj h⟩
  · rintro ⟨a, x, b, ⟨hz, ha, hb, hc, hk⟩, hne, rfl⟩
    exact ⟨hz, hk, a, ha, b, hb, x, hc, if_neg hne⟩

theorem formatS1K_eq_ok {nB : Nat} {mk : Fin nB → Elem → Instr} :
    formatS1K c nB mk = .ok i ↔ ∃ (b : Fin nB) (k : Elem), HasFields c 0 b 0 k ∧ mk b k = i := by
  simp only [formatS1K, except_bind_eq_ok, needZ_eq_ok, unused_eq_ok, index_eq_ok, element_eq_ok, pure, Except.pure,
    Except.ok.injEq, exists_const]
  constructor
  · rintro ⟨hz, ha, hc, b, hb, k, hk, rfl⟩
    exact ⟨b, k, ⟨hz, ha, hb, hc, hk⟩, rfl⟩
  · rintro ⟨b, k, ⟨hz, ha, hb, hc, hk⟩, rfl⟩
    exact ⟨hz, ha, hc, b, hb, k, hk, rfl⟩

theorem formatD1K_eq_ok {nA : Nat} {mk : Fin nA → Elem → Instr} :
    formatD1K c nA mk = .ok i ↔ ∃ (a : Fin nA) (k : Elem), HasFields c a 0 0 k ∧ mk a k = i := by
  simp only [formatD1K, except_bind_eq_ok, needZ_eq_ok, unused_eq_ok, index_eq_ok, element_eq_ok, pure, Except.pure,
    Except.ok.injEq, exists_const]
  constructor
  · rintro ⟨hz, hb, hc, a, ha, k, hk, rfl⟩
    exact ⟨a, k, ⟨hz, ha, hb, hc, hk⟩, rfl⟩
  · rintro ⟨a, k, ⟨hz, ha, hb, hc, hk⟩, rfl⟩
    exact ⟨hz, hb, hc, a, ha, k, hk, rfl⟩

/-- A word within limits has fields that are numbers below them. -/
theorem within_iff {a b x k : Nat} :
    Within c a b x k ↔ ∃ (i : Fin a) (j : Fin b) (l : Fin x) (m : Fin k), HasFields c i j l m := by
  constructor
  · rintro ⟨hz, ha, hb, hc, hk⟩
    exact ⟨⟨_, ha⟩, ⟨_, hb⟩, ⟨_, hc⟩, ⟨_, hk⟩, hz, rfl, rfl, rfl, rfl⟩
  · rintro ⟨i, j, l, m, hz, ha, hb, hc, hk⟩
    exact ⟨hz, ha ▸ i.isLt, hb ▸ j.isLt, hc ▸ l.isLt, hk ▸ m.isLt⟩

theorem exists_formatZ0_eq_ok {j : Instr} : (∃ i, formatZ0 c j = .ok i) ↔ Within c 1 1 1 1 := by
  simp [formatZ0_eq_ok, within_iff]

theorem exists_formatD1S1_eq_ok {nA nB : Nat} {mk : Fin nA → Fin nB → Instr} :
    (∃ i, formatD1S1 c nA nB mk = .ok i) ↔ Within c nA nB 1 1 := by
  simp [formatD1S1_eq_ok, within_iff]

theorem exists_formatD1S2_eq_ok {nA nB nC : Nat} {mk : Fin nA → Fin nB → Fin nC → Instr} :
    (∃ i, formatD1S2 c nA nB nC mk = .ok i) ↔ Within c nA nB nC 1 := by
  simp [formatD1S2_eq_ok, within_iff]

theorem exists_formatS1K_eq_ok {nB : Nat} {mk : Fin nB → Elem → Instr} :
    (∃ i, formatS1K c nB mk = .ok i) ↔ Within c 1 nB 1 12 := by
  simp [formatS1K_eq_ok, within_iff]

theorem exists_formatD1K_eq_ok {nA : Nat} {mk : Fin nA → Elem → Instr} :
    (∃ i, formatD1K c nA mk = .ok i) ↔ Within c nA 1 1 12 := by
  simp [formatD1K_eq_ok, within_iff]

theorem exists_formatD2S1_eq_ok {nD nB : Nat} {mk : Fin nD → Fin nD → Fin nB → Instr} :
    (∃ i, formatD2S1 c nD nB mk = .ok i) ↔ Within c nD nB nD 1 ∧ fieldA c ≠ fieldC c := by
  constructor
  · rintro ⟨i, h⟩
    obtain ⟨a, x, b, hf, hne, -⟩ := formatD2S1_eq_ok.1 h
    exact ⟨within_iff.2 ⟨a, b, x, 0, hf⟩, by rwa [hf.ha, hf.hc, ne_eq, Fin.val_inj]⟩
  · rintro ⟨⟨hz, ha, hb, hc, hk⟩, hne⟩
    have hf : HasFields c (fieldA c) (fieldB c) (fieldC c) 0 := ⟨hz, rfl, rfl, rfl, by omega⟩
    exact ⟨_, formatD2S1_eq_ok.2 ⟨⟨_, ha⟩, ⟨_, hc⟩, ⟨_, hb⟩, hf, by simpa using hne, rfl⟩⟩

end

/-! ### Decoding and encoding undo each other (spec 30_encoding R74 to R76) -/

/-- Settles O1: the word carries the opcode, which selects the format, and the operands, which pass its checks. -/
theorem decodeOfEncodedCommand : Obligations.DecodeOfEncodedCommand := by
  intro i hwf
  rw [decode, fieldOpc_encode]
  cases i with
  | nop | mg1 | ug1 | mg2 | ug2 | mgt | ugt => exact formatZ0_eq_ok.2 ⟨hasFields_pack _, rfl⟩
  | senc d r | sdec d r | fenc d r | fdec d r => exact formatD1S1_eq_ok.2 ⟨d, r, hasFields_pack _, rfl⟩
  | qilv d a b | qenc d a b => exact formatD1S2_eq_ok.2 ⟨d, a, b, hasFields_pack _, rfl⟩
  | qdil a b r | qdec a b r => exact formatD2S1_eq_ok.2 ⟨a, b, r, hasFields_pack _, bne_iff_ne.1 hwf, rfl⟩
  | ftob r k => exact formatS1K_eq_ok.2 ⟨r, k, hasFields_pack _, rfl⟩
  | btof d k => exact formatD1K_eq_ok.2 ⟨d, k, hasFields_pack _, rfl⟩

/-- Settles O2: the format a word's opcode selects checks every field, so the word is its opcode packed with the
operands. -/
theorem encodeOfDecodedWord : Obligations.EncodeOfDecodedWord := by
  intro c i h
  unfold decode at h
  split at h
  case h_1 hopc | h_12 hopc | h_13 hopc | h_14 hopc | h_15 hopc | h_16 hopc | h_17 hopc =>
    obtain ⟨hf, rfl⟩ := formatZ0_eq_ok.1 h
    exact ⟨hf.pack_eq hopc, rfl⟩
  case h_2 hopc | h_3 hopc | h_4 hopc | h_5 hopc =>
    obtain ⟨d, r, hf, rfl⟩ := formatD1S1_eq_ok.1 h
    exact ⟨hf.pack_eq hopc, rfl⟩
  case h_6 hopc | h_8 hopc =>
    obtain ⟨d, a, b, hf, rfl⟩ := formatD1S2_eq_ok.1 h
    exact ⟨hf.pack_eq hopc, rfl⟩
  case h_7 hopc | h_9 hopc =>
    obtain ⟨a, b, r, hf, hne, rfl⟩ := formatD2S1_eq_ok.1 h
    exact ⟨hf.pack_eq hopc, bne_iff_ne.2 hne⟩
  case h_10 hopc =>
    obtain ⟨r, k, hf, rfl⟩ := formatS1K_eq_ok.1 h
    exact ⟨hf.pack_eq hopc, rfl⟩
  case h_11 hopc =>
    obtain ⟨d, k, hf, rfl⟩ := formatD1K_eq_ok.1 h
    exact ⟨hf.pack_eq hopc, rfl⟩
  case h_18 => cases h

/-! ### Illegal words (spec 30_encoding R76) -/

/-- For one of the seventeen opcodes, a word is legal when its fields are within the limits of the opcode and the two
destinations differ (R76). -/
theorem not_illegalByFields_iff {c : BusWord} {a b x k : Nat} (h : fieldLimits (fieldOpc c) = some (a, b, x, k)) :
    ¬ illegalByFields c ↔ Within c a b x k ∧ (fieldOpc c = 0x31 ∨ fieldOpc c = 0x33 → fieldA c ≠ fieldC c) := by
  simp only [illegalByFields, h, not_or, not_and, not_not, Nat.not_le]
  exact ⟨fun ⟨hz, ha, hb, hc, hk, hne⟩ => ⟨⟨hz, ha, hb, hc, hk⟩, hne⟩,
    fun ⟨⟨hz, ha, hb, hc, hk⟩, hne⟩ => ⟨hz, ha, hb, hc, hk, hne⟩⟩

theorem exists_decode_eq_ok (c : BusWord) : (∃ i, decode c = .ok i) ↔ ¬ illegalByFields c := by
  unfold decode
  split
  case h_1 hopc | h_12 hopc | h_13 hopc | h_14 hopc | h_15 hopc | h_16 hopc | h_17 hopc =>
    rw [exists_formatZ0_eq_ok, not_illegalByFields_iff (by rw [hopc]; rfl)]
    simp [hopc]
  case h_2 hopc | h_3 hopc | h_4 hopc | h_5 hopc =>
    rw [exists_formatD1S1_eq_ok, not_illegalByFields_iff (by rw [hopc]; rfl)]
    simp [hopc]
  case h_6 hopc | h_8 hopc =>
    rw [exists_formatD1S2_eq_ok, not_illegalByFields_iff (by rw [hopc]; rfl)]
    simp [hopc]
  case h_7 hopc | h_9 hopc =>
    rw [exists_formatD2S1_eq_ok, not_illegalByFields_iff (by rw [hopc]; rfl)]
    simp [hopc]
  case h_10 hopc =>
    rw [exists_formatS1K_eq_ok, not_illegalByFields_iff (by rw [hopc]; rfl)]
    simp [hopc]
  case h_11 hopc =>
    rw [exists_formatD1K_eq_ok, not_illegalByFields_iff (by rw [hopc]; rfl)]
    simp [hopc]
  case h_18 =>
    have hnone : fieldLimits (fieldOpc c) = none := by
      simp_all only [imp_false, fieldLimits, false_or, or_self, if_false]
      exact if_neg (by omega)
    simp [illegalByFields, hnone]

theorem exists_decode_eq_error (c : BusWord) : (∃ e, decode c = .error e) ↔ illegalByFields c := by
  rw [← not_iff_not, ← exists_decode_eq_ok]
  cases decode c <;> simp

/-- Outside the fault state IllegalCommand is reported, and nothing but the report is written (R76, R80, R165). -/
theorem State.command_illegalCommand {s : State} {rule : State → Ending} (hf : s.faulted = false)
    (hrule : rule s = .illegalCommand) :
    ∃ t, s.command rule = .next t ∧ s.reports t .illegalCommand ∧ s.keepsBut t (fun _ => False) := by
  refine ⟨s.setCode .illegalCommand, ?_, s.reports_setCode _, State.keepsBut_setCode (s.keepsBut_refl _) _⟩
  rw [(s.command_eq rule).2 hf, hrule]
  rfl

/-- Settles O5. -/
theorem illegalExactlyByFields : Obligations.IllegalExactlyByFields := by
  refine fun c => ⟨exists_decode_eq_error c, fun hillegal s hf => ?_⟩
  obtain ⟨e, he⟩ := (exists_decode_eq_error c).2 hillegal
  rw [runWord, he]
  exact State.command_illegalCommand hf rfl

theorem exists_decode_eq_error_of_sameDestination {c : BusWord} (hopc : fieldOpc c = 0x31 ∨ fieldOpc c = 0x33)
    (hsame : fieldA c = fieldC c) : ∃ e, decode c = .error e := by
  rw [exists_decode_eq_error, illegalByFields]
  split
  · trivial
  · simp [hopc, hsame]

/-- Settles O45: the two destinations stand in `A` and `C` of the word, and the rule of the term refuses them. -/
theorem sameDestinationIsIllegal : Obligations.SameDestinationIsIllegal := by
  intro x y r
  have hqdil := hasFields_pack 0x31 (a := x) (b := r) (x := x) (k := 0)
  have hqdec := hasFields_pack 0x33 (a := y) (b := r) (x := y) (k := 0)
  have hopcqdil := fieldOpc_encode (.qdil x x r)
  have hopcqdec := fieldOpc_encode (.qdec y y r)
  refine ⟨exists_decode_eq_error_of_sameDestination (.inl hopcqdil) (hqdil.ha.trans hqdil.hc.symm),
    exists_decode_eq_error_of_sameDestination (.inr hopcqdec) (hqdec.ha.trans hqdec.hc.symm), fun s hf => ?_⟩
  obtain ⟨t, ht, htr, htk⟩ := State.command_illegalCommand (rule := qdilRule x x r) hf (if_pos rfl)
  obtain ⟨u, hu, hur, huk⟩ := State.command_illegalCommand (rule := qdecRule y y r) hf (if_pos rfl)
  exact ⟨t, u, ht, hu, htr, hur, htk, huk⟩

/-- Settles O4: the example words are the words of the commands they are said to be. -/
theorem exampleWordsDecode : Obligations.ExampleWordsDecode :=
  ⟨decodeOfEncodedCommand (.senc 1 2) rfl, decodeOfEncodedCommand (.qdil 0 1 5) rfl, decodeOfEncodedCommand (.ftob 3 11) rfl,
    decodeOfEncodedCommand .ugt rfl, decodeOfEncodedCommand .nop rfl, by decide, by decide⟩

/-! ### The opcode map (spec 30_encoding R74, R75)

A row's mask and further conditions are built from the limits of its fields. `rowOf` builds them, the map is made of such
rows, and a word meets such a row exactly when it has the row's opcode and is legal. -/

/-- The bits that no value below a limit sets (R74). -/
def limitMask (n : Nat) : Nat :=
  if n = 1 then 0xF else if n = 2 then 0xE else if n = 4 then 0xC else if n = 6 then 0x8 else 0

/-- The condition a field with a limit of 6 or 12 keeps beside its mask (R74). -/
def limitFurther (atMost : Nat → Further) (n : Nat) : List Further :=
  if n = 6 ∨ n = 12 then [atMost (n - 1)] else []

/-- A mask with the whole of `OPC` and `Z`, and these bits of the operand fields (R74). -/
def rowMask (a b x k : Nat) : BusWord :=
  BitVec.ofNat 32 (0xFF * 2 ^ 24 + a * 2 ^ 20 + b * 2 ^ 16 + x * 2 ^ 12 + 0xFF * 2 ^ 4 + k)

/-- The row of an opcode with these limits of `A`, `B`, `C`, `K` (R74). -/
def rowOf (mnemonic : String) (opc a b x k : Nat) : OpcodeRow where
  mnemonic := mnemonic
  pattern := pack opc 0 0 0 0
  mask := rowMask (limitMask a) (limitMask b) (limitMask x) (limitMask k)
  further := limitFurther .aAtMost a ++ limitFurther .bAtMost b ++ limitFurther .kAtMost k ++
    if opc = 0x31 ∨ opc = 0x33 then [.aNotC] else []

/-- Every row of the map is the row that the limits of its opcode give. -/
theorem exists_rowOf : ∀ r ∈ opcodeTable, ∃ opc a b x k,
    fieldLimits opc = some (a, b, x, k) ∧ r = rowOf r.mnemonic opc a b x k := by
  simp only [opcodeTable, List.forall_mem_cons]
  exact ⟨⟨0x00, _, _, _, _, rfl, rfl⟩, ⟨0x10, _, _, _, _, rfl, rfl⟩, ⟨0x11, _, _, _, _, rfl, rfl⟩,
    ⟨0x20, _, _, _, _, rfl, rfl⟩, ⟨0x21, _, _, _, _, rfl, rfl⟩, ⟨0x30, _, _, _, _, rfl, rfl⟩,
    ⟨0x31, _, _, _, _, rfl, rfl⟩, ⟨0x32, _, _, _, _, rfl, rfl⟩, ⟨0x33, _, _, _, _, rfl, rfl⟩,
    ⟨0x40, _, _, _, _, rfl, rfl⟩, ⟨0x41, _, _, _, _, rfl, rfl⟩, ⟨0x50, _, _, _, _, rfl, rfl⟩,
    ⟨0x51, _, _, _, _, rfl, rfl⟩, ⟨0x52, _, _, _, _, rfl, rfl⟩, ⟨0x53, _, _, _, _, rfl, rfl⟩,
    ⟨0x54, _, _, _, _, rfl, rfl⟩, ⟨0x55, _, _, _, _, rfl, rfl⟩, nofun⟩

/-- The limits that R72 and R73 give. -/
def isLimit (n : Nat) : Prop := n = 1 ∨ n = 2 ∨ n = 4 ∨ n = 6 ∨ n = 12

theorem isLimit_of_fieldLimits {opc a b x k : Nat} (h : fieldLimits opc = some (a, b, x, k)) :
    opc < 256 ∧ isLimit a ∧ isLimit b ∧ isLimit x ∧ isLimit k ∧ ¬ (x = 6 ∨ x = 12) := by
  unfold fieldLimits at h
  split_ifs at h
  all_goals
    cases h
    unfold isLimit
    omega

theorem limitMask_lt (n : Nat) : limitMask n < 16 := by
  unfold limitMask
  split_ifs <;> decide

/-- The mask and the further condition of a field together say that it is below its limit. -/
theorem and_limitMask_eq_zero_iff {n f : Nat} (hn : isLimit n) (hf : f < 16) :
    f &&& limitMask n = 0 ∧ (n = 6 ∨ n = 12 → f ≤ n - 1) ↔ f < n := by
  obtain rfl | rfl | rfl | rfl | rfl := hn
  all_goals
    revert f
    decide

theorem fields_rowMask {a b x k : Nat} (ha : a < 16) (hb : b < 16) (hx : x < 16) (hk : k < 16) :
    fieldOpc (rowMask a b x k) = 0xFF ∧ fieldZ (rowMask a b x k) = 0xFF ∧ fieldA (rowMask a b x k) = a ∧
      fieldB (rowMask a b x k) = b ∧ fieldC (rowMask a b x k) = x ∧ fieldK (rowMask a b x k) = k := by
  simp only [fieldOpc, fieldA, fieldB, fieldC, fieldZ, fieldK, bits, rowMask, BitVec.toNat_ofNat]
  omega

/-- A mask and a match of R74, field by field. -/
theorem and_rowMask_eq_iff {c : BusWord} {opc a b x k : Nat} (hopc : opc < 256) (ha : a < 16) (hb : b < 16) (hx : x < 16)
    (hk : k < 16) :
    c &&& rowMask a b x k = pack opc 0 0 0 0 ↔ fieldOpc c = opc ∧ fieldZ c = 0 ∧ fieldA c &&& a = 0 ∧
      fieldB c &&& b = 0 ∧ fieldC c &&& x = 0 ∧ fieldK c &&& k = 0 := by
  obtain ⟨hmopc, hmz, hma, hmb, hmc, hmk⟩ := fields_rowMask ha hb hx hk
  obtain ⟨hpopc, -⟩ := Laws.pack_opc_z opc 0 0 0 0 hopc (by decide) (by decide) (by decide) (by decide)
  obtain ⟨hpz, hpa, hpb, hpc, hpk⟩ := hasFields_pack opc (a := 0) (b := 0) (x := 0) (k := 0)
  obtain ⟨hopc', hz', ha', hb', hc', hk'⟩ := fields_and c (rowMask a b x k)
  have hwhole {f : Nat} (hf : f < 256) : f &&& 0xFF = f := Nat.and_two_pow_sub_one_of_lt_two_pow (n := 8) hf
  rw [word_eq_iff, hopc', hz', ha', hb', hc', hk', hmopc, hmz, hma, hmb, hmc, hmk, hpopc, hpz, hpa, hpb, hpc, hpk,
    hwhole (fieldOpc_lt c), hwhole (fieldZ_lt c)]

theorem all_limitFurther {p : Further → Bool} {atMost : Nat → Further} {n : Nat} :
    (limitFurther atMost n).all p = true ↔ (n = 6 ∨ n = 12 → p (atMost (n - 1)) = true) := by
  unfold limitFurther
  split_ifs with h <;> simp [h]

/-- The further conditions of a row (R74). -/
theorem rowOf_further_iff {c : BusWord} {mnemonic : String} {opc a b x k : Nat} :
    (rowOf mnemonic opc a b x k).further.all (fun f => f.holds c) = true ↔
      (a = 6 ∨ a = 12 → fieldA c ≤ a - 1) ∧ (b = 6 ∨ b = 12 → fieldB c ≤ b - 1) ∧
        (k = 6 ∨ k = 12 → fieldK c ≤ k - 1) ∧ (opc = 0x31 ∨ opc = 0x33 → fieldA c ≠ fieldC c) := by
  have hdest : (if opc = 0x31 ∨ opc = 0x33 then [Further.aNotC] else []).all (fun f => f.holds c) = true ↔
      (opc = 0x31 ∨ opc = 0x33 → fieldA c ≠ fieldC c) := by
    split_ifs with h <;> simp [h, Further.holds]
  simp only [rowOf, List.all_append, Bool.and_eq_true, all_limitFurther, hdest, and_assoc]
  simp only [Further.holds, decide_eq_true_eq]

theorem rowOf_meets_iff {c : BusWord} {mnemonic : String} {opc a b x k : Nat}
    (h : fieldLimits opc = some (a, b, x, k)) :
    (rowOf mnemonic opc a b x k).meets c = true ↔ fieldOpc c = opc ∧ ¬ illegalByFields c := by
  obtain ⟨hopc, ha, hb, hx, hk, hxfurther⟩ := isLimit_of_fieldLimits h
  have hA := and_limitMask_eq_zero_iff ha (fieldA_lt c)
  have hB := and_limitMask_eq_zero_iff hb (fieldB_lt c)
  have hC := and_limitMask_eq_zero_iff hx (fieldC_lt c)
  have hK := and_limitMask_eq_zero_iff hk (fieldK_lt c)
  rw [OpcodeRow.meets, Bool.and_eq_true, decide_eq_true_eq, rowOf_further_iff]
  show c &&& rowMask _ _ _ _ = pack opc 0 0 0 0 ∧ _ ↔ _
  rw [and_rowMask_eq_iff hopc (limitMask_lt a) (limitMask_lt b) (limitMask_lt x) (limitMask_lt k)]
  refine and_assoc.trans (and_congr_right fun hc => ?_)
  rw [not_illegalByFields_iff (hc ▸ h), hc]
  constructor
  · rintro ⟨⟨hz, hma, hmb, hmc, hmk⟩, hfa, hfb, hfk, hne⟩
    exact ⟨⟨hz, hA.1 ⟨hma, hfa⟩, hB.1 ⟨hmb, hfb⟩, hC.1 ⟨hmc, fun h => absurd h hxfurther⟩, hK.1 ⟨hmk, hfk⟩⟩, hne⟩
  · rintro ⟨⟨hz, hwa, hwb, hwc, hwk⟩, hne⟩
    obtain ⟨hma, hfa⟩ := hA.2 hwa
    obtain ⟨hmb, hfb⟩ := hB.2 hwb
    obtain ⟨hmc, -⟩ := hC.2 hwc
    obtain ⟨hmk, hfk⟩ := hK.2 hwk
    exact ⟨⟨hz, hma, hmb, hmc, hmk⟩, hfa, hfb, hfk, hne⟩

/-- A word meets a row of the map when it has the row's opcode and is legal. -/
theorem meets_iff {r : OpcodeRow} (hr : r ∈ opcodeTable) (c : BusWord) :
    r.meets c = true ↔ fieldOpc c = fieldOpc r.pattern ∧ ¬ illegalByFields c := by
  obtain ⟨opc, a, b, x, k, hlim, hrow⟩ := exists_rowOf r hr
  obtain ⟨hopc, -⟩ := isLimit_of_fieldLimits hlim
  obtain ⟨hpattern, -⟩ := Laws.pack_opc_z opc 0 0 0 0 hopc (by decide) (by decide) (by decide) (by decide)
  have hp : fieldOpc r.pattern = opc := by rw [hrow]; exact hpattern
  rw [hp, hrow]
  exact rowOf_meets_iff hlim

/-- Every command has its row in the map (R74). -/
theorem exists_row_of_instr (i : Instr) :
    ∃ r ∈ opcodeTable, fieldOpc r.pattern = i.opcode ∧ r.mnemonic = i.mnemonic := by
  cases i
  all_goals
    simp only [Instr.opcode, Instr.mnemonic]
    decide

theorem opcodeTable_opcodes_nodup : (opcodeTable.map fun r => fieldOpc r.pattern).Nodup := by decide

/-- Settles O3: a word that decodes meets the row of its opcode and, opcodes being distinct, no other; a word that does
not is illegal and meets none. -/
theorem everyWordIsOneRowOrIllegal : Obligations.EveryWordIsOneRowOrIllegal := by
  intro c
  cases hdec : decode c with
  | ok i =>
    have hlegal : ¬ illegalByFields c := (exists_decode_eq_ok c).1 ⟨i, hdec⟩
    obtain ⟨hword, -⟩ := encodeOfDecodedWord c i hdec
    obtain ⟨r, hr, hopc, hname⟩ := exists_row_of_instr i
    have hc : fieldOpc c = fieldOpc r.pattern := by rw [← hword, fieldOpc_encode, hopc]
    refine .inl ⟨r, hr, (meets_iff hr c).2 ⟨hc, hlegal⟩, fun r' hr' hmeets => ?_, i, rfl, hname.symm, hword⟩
    have hc' : fieldOpc c = fieldOpc r'.pattern := ((meets_iff hr' c).1 hmeets).1
    exact List.inj_on_of_nodup_map opcodeTable_opcodes_nodup hr' hr (hc'.symm.trans hc)
  | error e =>
    have hillegal : illegalByFields c := (exists_decode_eq_error c).1 ⟨e, hdec⟩
    exact .inr ⟨fun r hr => eq_false_of_ne_true fun hmeets => ((meets_iff hr c).1 hmeets).2 hillegal, e, rfl⟩

end Sys2Proof.Machine

/-! ### Integers and scalar words (spec 40_scalar_codec R90, R92)

`scalarWords` cuts an integer into four engine words and `sval` puts them together again: each undoes the other, as long
as the integer is below 2^256. -/

namespace Sys2Proof.Machine

/-- Engine word `j` is bits [64j+63:64j] of the integer (R90). -/
theorem scalarWords_getElem_toNat (k : Int512) (j : Nat) (hj : j < 4) :
    (scalarWords k)[j].toNat = k.toNat / 2 ^ (64 * j) % 2 ^ 64 := by
  simp [scalarWords, BitVec.extractLsb'_toNat, Nat.shiftRight_eq_div_pow]

/-- `sval` is the little-endian sum of R92. -/
theorem sval_eq_sum (r : ScalarReg) : sval r = ∑ j : Fin 4, r[j].toNat * 2 ^ (64 * j.val) := by
  simp [Fin.sum_univ_four, sval]

theorem sval_lt (r : ScalarReg) : sval r < 2 ^ 256 := by
  have h0 := r[0].isLt
  have h1 := r[1].isLt
  have h2 := r[2].isLt
  have h3 := r[3].isLt
  unfold sval
  omega

/-- Four engine words fit the integer register they are decoded into (R92). -/
theorem State.getI_setInt_sval (s : State) (i : IReg) (r : ScalarReg) : ((s.setInt i (sval r)).getI i).toNat = sval r := by
  have hfits : sval r < 2 ^ 512 := (sval_lt r).trans (pow_lt_pow_right₀ one_lt_two (by decide))
  rw [State.getI_setInt, if_pos rfl, BitVec.toNat_ofNat, Nat.mod_eq_of_lt hfits]

/-- The four words of an integer below 2^256 hold all of it (R93). -/
theorem sval_scalarWords {k : Int512} (hk : k.toNat < 2 ^ 256) : sval (scalarWords k) = k.toNat := by
  simp only [sval, scalarWords_getElem_toNat]
  omega

/-- The four words of the value of a scalar register are its content (R93). -/
theorem scalarWords_eq_of_toNat {k : Int512} {r : ScalarReg} (h : k.toNat = sval r) : scalarWords k = r := by
  ext1 j hj
  apply BitVec.eq_of_toNat_eq
  rw [scalarWords_getElem_toNat, h, sval_div_mod r j hj]

/-! ### The scalar commands (spec 40_scalar_codec R90 to R93) -/

/-- Outside the fault state a command whose rule ends `OK` leaves the state of the rule with `CODE` 0 (R80). -/
theorem exec_eq_of_rule_ok {i : Instr} {s t : State} (hf : s.faulted = false) (h : ruleOf i s = .ok t) :
    exec i s = .next (t.setCode .ok) := by
  rw [exec_eq, (s.command_eq _).2 hf, h, State.conclude]

/-- After register writes alone, setting `CODE` reports it: the other bits of `STATUS` are those of the start (R80). -/
theorem State.WritesOnly.reports_setCode {s t : State} {touched : Reg → Prop} (h : s.WritesOnly t touched) (c : Code) :
    s.reports (t.setCode c) c := by
  obtain ⟨hcode, hbits⟩ := t.reports_setCode c
  exact ⟨hcode, fun b hb => h.status ▸ hbits b hb⟩

section ScalarCommands

variable {s : State} (hf : s.faulted = false)
include hf

theorem exec_senc (d : SReg) {r : IReg} (h : (s.getI r).toNat < 2 ^ 256) :
    exec (.senc d r) s = .next ((s.setS d (scalarWords (s.getI r))).setCode .ok) :=
  exec_eq_of_rule_ok hf (if_neg (Nat.not_le.2 h))

theorem exec_sdec (d : IReg) (r : SReg) :
    exec (.sdec d r) s = .next ((s.setInt d (sval (s.getS r))).setCode .ok) :=
  exec_eq_of_rule_ok hf rfl

end ScalarCommands

/-- Settles O30: below 2^256 the width check passes, and the one register write is the words of the integer. -/
theorem sencStoresTheInteger : Obligations.SencStoresTheInteger := by
  intro s d r hf hlt
  have hwrites := (State.WritesOnly.refl s (touched := (· = .scalar d))).setS d (scalarWords (s.getI r)) rfl
  refine ⟨_, exec_senc hf d hlt, hwrites.reports_setCode .ok, fun j => ?_, State.keepsBut_setCode hwrites.keeps .ok⟩
  rw [State.getS_setCode_other, State.getS_setS_same]
  exact scalarWords_getElem_toNat _ j.val j.isLt

/-- Settles O32: the one register write is `sval`, which is the sum and fits the register. -/
theorem sdecGivesTheSum : Obligations.SdecGivesTheSum := by
  intro s d r hf
  have hwrites := (State.WritesOnly.refl s (touched := (· = .int d))).setInt d (sval (s.getS r)) rfl
  refine ⟨_, exec_sdec hf d r, hwrites.reports_setCode .ok, ?_, State.keepsBut_setCode hwrites.keeps .ok⟩
  rw [State.getI_setCode_other, State.getI_setInt_sval, sval_eq_sum]

/-- Settles O33: neither command enters the fault state, so the second one runs, on the register the first one wrote. -/
theorem scalarRoundTrip : Obligations.ScalarRoundTrip := by
  constructor
  · intro s d r e hf hlt
    have hft := (State.faulted_setCode (s.setS d (scalarWords (s.getI r))) .ok).trans hf
    refine ⟨_, _, exec_senc hf d hlt, exec_sdec hft e d, ?_⟩
    rw [State.getI_setCode_other, State.getI_setInt_sval, State.getS_setCode_other, State.getS_setS_same,
      sval_scalarWords hlt]
  · intro s e r d hf
    have hft := (State.faulted_setCode (s.setInt e (sval (s.getS r))) .ok).trans hf
    have hvalue : (((s.setInt e (sval (s.getS r))).setCode .ok).getI e).toNat = sval (s.getS r) :=
      s.getI_setInt_sval e (s.getS r)
    refine ⟨_, _, exec_sdec hf e r, exec_senc hft d (hvalue.trans_lt (sval_lt _)), State.code_setCode _ _, ?_⟩
    rw [State.getS_setCode_other, State.getS_setS_same, scalarWords_eq_of_toNat hvalue]

end Sys2Proof.Machine

/-! ### The base field's mixed radix (spec 41_base_field_codec R101, R105)

Each weight of R25 is the one before it times the divisor of that digit. From this alone: the digits of the division add
up to the integer, and digits below the divisors are determined by the integer they add up to. -/

namespace Sys2Proof.Machine

/-- The divisor digit `k` is a remainder of, for `k` up to 10 (R101). -/
def radix (V k : Nat) : Nat := if k = 0 ∨ k = 6 then 6 * V else V

theorem radix_val (V : Nat) (k : Fin 12) : radix V k.val = if k = 0 ∨ k = 6 then 6 * V else V := by
  simp only [radix, Fin.ext_iff]
  rfl

theorem radix_pos {V : Nat} (hV : 0 < V) (k : Nat) : 0 < radix V k := by
  unfold radix
  split <;> omega

theorem radix_le (V k : Nat) : radix V k ≤ 6 * V := by
  unfold radix
  split <;> omega

theorem weight_zero (V : Nat) : weight V 0 = 1 := rfl

theorem weight_succ (V k : Nat) : weight V (k + 1) = weight V k * radix V k := by
  obtain rfl | rfl | ⟨h0, h6⟩ : k = 0 ∨ k = 6 ∨ (k ≠ 0 ∧ k ≠ 6) := by omega
  · simp [weight, radix]
  · change 36 * V ^ 7 = 6 * V ^ 6 * (6 * V)
    ring
  · have hcut : k + 1 ≤ 6 ↔ k ≤ 6 := by omega
    simp only [weight, radix, hcut, h0, h6, Nat.add_eq_zero_iff, one_ne_zero, and_false, or_self, if_false]
    split <;> ring

/-- Digit `k` below 11 is the remainder of one quotient, by its weight and its divisor. -/
theorem digitOf_castSucc (V x : Nat) (k : Fin 11) :
    digitOf V x k.castSucc = x / weight V k.val % radix V k.val := by
  fin_cases k <;> simp [digitOf, weight, radix]

theorem digitOf_last (V x : Nat) : digitOf V x (Fin.last 11) = x / weight V 11 := rfl

/-- The first `n` digits of the division add up to what is left of `x` below the next weight. -/
theorem sum_digits_eq_mod (V x n : Nat) :
    ∑ k : Fin n, x / weight V k.val % radix V k.val * weight V k.val = x % weight V n := by
  induction n with
  | zero => simp [weight_zero, Nat.mod_one]
  | succ n ih =>
    rw [Fin.sum_univ_castSucc, weight_succ, Nat.mod_mul]
    simp only [Fin.val_castSucc, Fin.val_last, ih]
    ring

/-- The digits of the division add up to `x` (R105). -/
theorem sum_digitOf (V x : Nat) : ∑ k : Fin 12, digitOf V x k * weight V k.val = x := by
  rw [Fin.sum_univ_castSucc, digitOf_last]
  simp only [digitOf_castSucc, Fin.val_castSucc, Fin.val_last, sum_digits_eq_mod]
  exact Nat.mod_add_div' x (weight V 11)

/-- A remainder below a divisor and a quotient are determined by the number they make. -/
theorem remainder_quotient_unique {r d d' a b : Int} (hd : 0 ≤ d ∧ d < r) (hd' : 0 ≤ d' ∧ d' < r)
    (h : d + a * r = d' + b * r) : d = d' ∧ a = b := by
  have hr : 0 < r := by omega
  obtain ⟨hq, hm⟩ : (d + a * r) / r = a ∧ (d + a * r) % r = d := (Int.ediv_emod_unique hr).2 ⟨by ring, hd⟩
  obtain ⟨hq', hm'⟩ : (d + a * r) / r = b ∧ (d + a * r) % r = d' :=
    (Int.ediv_emod_unique hr).2 ⟨by rw [h]; ring, hd'⟩
  exact ⟨hm.symm.trans hm', hq.symm.trans hq'⟩

/-- Digits below their divisors, and the multiple of the next weight on top of them, are determined by the sum. -/
theorem digits_unique {V n : Nat} {d d' : Fin n → Int} {a b : Int}
    (hd : ∀ k, 0 ≤ d k ∧ d k < (radix V k.val : Int)) (hd' : ∀ k, 0 ≤ d' k ∧ d' k < (radix V k.val : Int))
    (h : ∑ k, d k * (weight V k.val : Int) + a * weight V n = ∑ k, d' k * (weight V k.val : Int) + b * weight V n) :
    (∀ k, d k = d' k) ∧ a = b := by
  induction n generalizing a b with
  | zero => exact ⟨nofun, by simpa [weight_zero] using h⟩
  | succ n ih =>
    simp only [Fin.sum_univ_castSucc, Fin.val_castSucc, Fin.val_last, weight_succ, Nat.cast_mul] at h
    obtain ⟨hlow, htop⟩ := ih (d := fun k => d k.castSucc) (d' := fun k => d' k.castSucc)
      (a := d (Fin.last n) + a * radix V n) (b := d' (Fin.last n) + b * radix V n)
      (fun k => hd k.castSucc) (fun k => hd' k.castSucc) (by linear_combination h)
    obtain ⟨hlast, hab⟩ := remainder_quotient_unique (hd (Fin.last n)) (hd' (Fin.last n)) htop
    exact ⟨Fin.lastCases hlast hlow, hab⟩

/-! ### `fenc` and `fdec` of digit vectors (spec 41_base_field_codec R101, R103, R105 to R107) -/

/-- Digits 0 to 10 are remainders by the divisors of R101. -/
def belowRadices (V : Nat) (D : DigitVec) : Prop :=
  ∀ k : Fin 12, k < 11 → 0 ≤ D[k] ∧ D[k] < (radix V k.val : Int)

/-- The same in the ranges R106 writes out. -/
theorem belowRadices_iff (V : Nat) (D : DigitVec) :
    belowRadices V D ↔ ∀ k : Fin 12, k < 11 → 0 ≤ D[k] ∧ D[k] < (if k = 0 ∨ k = 6 then 6 * V else V : Nat) := by
  simp only [belowRadices, radix_val]

theorem belowRadices_fencDigits {V : Nat} (hV : 0 < V) (x : Nat) : belowRadices V (fencDigits V x) := by
  intro k hk
  have hdigit : digitOf V x k = x / weight V k.val % radix V k.val := digitOf_castSucc V x (k.castLT hk)
  rw [fencDigits_getElem, hdigit]
  have := Nat.mod_lt (x / weight V k.val) (radix_pos hV k.val)
  omega

/-- The digits of the division, as integers, add up to `x`. -/
theorem sum_fencDigits (V x : Nat) : ∑ k : Fin 12, (fencDigits V x)[k] * (weight V k.val : Int) = x := by
  simp only [fencDigits_getElem]
  exact_mod_cast sum_digitOf V x

/-- No vector in the ranges of the division but the division's own has the weighted sum `x` (R105). -/
theorem eq_fencDigits {V x : Nat} (hV : 0 < V) {D : DigitVec} (hD : belowRadices V D)
    (hsum : ∑ k : Fin 12, D[k] * (weight V k.val : Int) = x) : D = fencDigits V x := by
  have hsame := hsum.trans (sum_fencDigits V x).symm
  rw [Fin.sum_univ_castSucc (fun k : Fin 12 => D[k] * (weight V k.val : Int)),
    Fin.sum_univ_castSucc (fun k : Fin 12 => (fencDigits V x)[k] * (weight V k.val : Int))] at hsame
  obtain ⟨hlow, htop⟩ := digits_unique (n := 11) (fun k => hD k.castSucc k.isLt)
    (fun k => belowRadices_fencDigits hV x k.castSucc k.isLt) hsame
  have hall : ∀ k : Fin 12, D[k] = (fencDigits V x)[k] := Fin.lastCases htop hlow
  exact Vector.ext fun k hk => hall ⟨k, hk⟩

/-- Digit 11 is representable exactly as R107 says. -/
theorem representable_iff (p : Params) (x : Nat) : representable p x ↔ x / (36 * p.V ^ 11) ≤ digitMax := Iff.rfl

theorem fencDigits_last (V x : Nat) : (fencDigits V x)[11] = ((x / (36 * V ^ 11) : Nat) : Int) :=
  fencDigits_getElem V x 11

/-- `fenc` gives the digits of the division where digit 11 is representable, and fails elsewhere (R101). -/
theorem fenc_eq_some_iff (p : Params) (x : Nat) (D : DigitVec) :
    fenc p x = some D ↔ representable p x ∧ fencDigits p.V x = D := by
  rw [fenc, fencDigits_last, representable_iff]
  split
  · next h => exact iff_of_false nofun fun ⟨h', _⟩ => by omega
  · next h => exact ⟨fun e => ⟨by omega, Option.some.inj e⟩, fun ⟨_, e⟩ => congrArg some e⟩

theorem fenc_eq_none_iff (p : Params) (x : Nat) : fenc p x = none ↔ ¬ representable p x := by
  simp only [Option.eq_none_iff_forall_ne_some, ne_eq, fenc_eq_some_iff, not_and]
  exact ⟨fun h hr => h _ hr rfl, fun h _ hr => absurd hr h⟩

/-- `in_range` of a vector, digit by digit (R26). -/
theorem inRange_iff_ranged (D : DigitVec) : inRange D = true ↔ ranged fun k => D[k] := by
  simp only [inRange, List.all_eq_true, Vector.mem_toList_iff, Vector.forall_mem_iff_forall_getElem, digitInRange,
    decide_eq_true_eq, ranged]
  exact ⟨fun h k => h k.val k.isLt, fun h k hk => h ⟨k, hk⟩⟩

/-- A representable integer's digits are all in range (R9(b), R106). -/
theorem inRange_fencDigits {p : Params} {x : Nat} (h : representable p x) : inRange (fencDigits p.V x) = true := by
  rw [inRange_iff_ranged]
  intro k
  have := digitOf_le p x k h
  simp only [fencDigits_getElem]
  omega

/-- `fdec` of a vector in range whose digits add up to `z` is `z` reduced (R103). -/
theorem fdec_eq_of_sum {p : Params} {D : DigitVec} {z : Int} (hr : inRange D = true)
    (hsum : ∑ k : Fin 12, D[k] * (weight p.V k.val : Int) = z) : fdec p D = some (z % (p.P : Int)).toNat := by
  rw [fdec, if_pos hr, fval, weightedSum_eq, hsum]

/-- The digits of the division decode to the remainder mod `P` (R105, R107). -/
theorem fdec_fencDigits {p : Params} {x : Nat} (h : representable p x) : fdec p (fencDigits p.V x) = some (x % p.P) := by
  rw [fdec_eq_of_sum (inRange_fencDigits h) (sum_fencDigits p.V x)]
  rfl

/-- Different integers have different digits. -/
theorem fencDigits_injective (V : Nat) : Function.Injective (fencDigits V) := by
  intro x y h
  have hsum := sum_fencDigits V x
  rw [h, sum_fencDigits] at hsum
  exact_mod_cast hsum.symm

/-! ### The base-field commands (spec 41_base_field_codec R102, R104) -/

section BaseFieldCommands

variable {s : State} (hf : s.faulted = false)
include hf

theorem exec_fenc (d : FReg) {r : IReg} {D : FieldReg} (h : fencReg s.params (s.getI r).toNat = some D) :
    exec (.fenc d r) s = .next ((s.setF d D).setCode .ok) :=
  exec_eq_of_rule_ok hf (by rw [ruleOf, fencRule, h]; rfl)

theorem exec_fdec (d : IReg) {r : FReg} {x : Nat} (h : fdecReg s.params (s.getF r) = some x) :
    exec (.fdec d r) s = .next ((s.setInt d x).setCode .ok) :=
  exec_eq_of_rule_ok hf (by rw [ruleOf, fdecRule, h]; rfl)

end BaseFieldCommands

/-- Settles O34: where digit 11 is representable the check passes, and the one register write is the digits. -/
theorem fencWritesTheDigits : Obligations.FencWritesTheDigits := by
  intro s d r hf
  refine ⟨representable_of_lt s.params _, fun hrep => ?_⟩
  obtain ⟨D, hD, hdigits⟩ := fencReg_of_representable s.params _ hrep
  have hwrites := (State.WritesOnly.refl s (touched := (· = .field d))).setF d D rfl
  refine ⟨_, exec_fenc hf d hD, hwrites.reports_setCode .ok, ?_, State.keepsBut_setCode hwrites.keeps .ok⟩
  rwa [State.getF_setCode_other, State.getF_setF_same]

/-- Settles O35: the check passes, and the one register write is the value, which is below `P` and so fits. -/
theorem fdecGivesTheReducedSum : Obligations.FdecGivesTheReducedSum := by
  intro s d r hf hranged
  obtain ⟨hvalue, -⟩ := fdecReg_eq s.params (s.getF r)
  obtain ⟨-, hfits⟩ := valueOf_lt s.params (fieldDigits (s.getF r))
  have hwrites :=
    (State.WritesOnly.refl s (touched := (· = .int d))).setInt d (valueOf s.params (fieldDigits (s.getF r))) rfl
  refine ⟨_, exec_fdec hf d (hvalue hranged), hwrites.reports_setCode .ok, ?_, State.keepsBut_setCode hwrites.keeps .ok⟩
  rw [State.getI_setCode_other, State.getI_setInt, if_pos rfl, toNat_ofNat512 _ hfits]

/-- The vector with digit 0 equal to -1 and no other digit: in range, and no output of the division. -/
def minusOneDigits : DigitVec := #v[-1, 0, 0, 0, 0, 0, 0, 0, 0, 0, 0, 0]

theorem inRange_minusOneDigits : inRange minusOneDigits = true := by decide

theorem fenc_ne_minusOneDigits (p : Params) (x : Nat) : fenc p x ≠ some minusOneDigits := by
  intro h
  obtain ⟨-, hD⟩ := (fenc_eq_some_iff p x _).1 h
  have hbelow := belowRadices_fencDigits p.v_pos x
  rw [hD] at hbelow
  exact absurd (hbelow 0 (by decide)).1 (by decide)

/-- Settles O36: a reduced integer is representable and its own remainder; the vector of -1 is in range and no encoding. -/
theorem baseFieldRoundTrip : Obligations.BaseFieldRoundTrip := by
  intro p
  constructor
  · intro x hx
    have hrep := representable_of_lt p x hx
    refine ⟨fencDigits p.V x, (fenc_eq_some_iff p x _).2 ⟨hrep, rfl⟩, ?_, fencDigits_getElem p.V x, fun D' hD' hsum => ?_⟩
    · rw [fdec_fencDigits hrep, Nat.mod_eq_of_lt hx]
    · exact eq_fencDigits p.v_pos ((belowRadices_iff p.V D').2 hD') hsum
  · exact ⟨minusOneDigits, _, fdec_eq_of_sum inRange_minusOneDigits rfl, fenc_ne_minusOneDigits p _⟩

/-- Settles O37: digit 11 grows with the integer, which is at most `P - 1`. -/
theorem canonicalDigitRanges : Obligations.CanonicalDigitRanges := by
  refine ⟨fun p x D hx hD => ?_, by decide +kernel⟩
  obtain ⟨hrep, rfl⟩ := (fenc_eq_some_iff p x D).1 hD
  have hlast : x / (36 * p.V ^ 11) ≤ (p.P - 1) / (36 * p.V ^ 11) := Nat.div_le_div_right (by omega)
  refine ⟨(belowRadices_iff p.V _).1 (belowRadices_fencDigits p.v_pos x), ?_, ?_, inRange_fencDigits hrep⟩
  · rw [fencDigits_last]
    exact Int.natCast_nonneg _
  · rw [fencDigits_last]
    exact_mod_cast hlast

/-- Settles O38: the digits are those of `x` itself, and an integer of `P` or more differs from its remainder. -/
theorem unreducedIntegerIsEncoded : Obligations.UnreducedIntegerIsEncoded := by
  intro p x
  refine ⟨?_, fun D hD => ?_⟩
  · rw [fenc_eq_none_iff, representable_iff, Nat.not_le]
  · obtain ⟨hrep, rfl⟩ := (fenc_eq_some_iff p x D).1 hD
    refine ⟨fdec_fencDigits hrep, (belowRadices_iff p.V _).1 (belowRadices_fencDigits p.v_pos x), fun hx hsame => ?_⟩
    obtain ⟨-, hdigits⟩ := (fenc_eq_some_iff p (x % p.P) _).1 hsame
    have hmod : x % p.P = x := fencDigits_injective p.V hdigits
    have hlt : x % p.P < p.P := Nat.mod_lt x (by have := p.p_two; omega)
    omega

end Sys2Proof.Machine

/-! ### The slots of the quadratic layout (spec 42_quadratic_extension_codec R110)

Slot `2k` belongs to the second and slot `2k + 1` to the first element, so every slot is one of the two and the layout
functions undo each other. -/

namespace Sys2Proof.Machine

/-- A slot vector is determined by its even and its odd slots. -/
theorem quad_ext {α : Type} {T U : Vector α 24} (heven : ∀ k : Fin 12, T[2 * k.val] = U[2 * k.val])
    (hodd : ∀ k : Fin 12, T[2 * k.val + 1] = U[2 * k.val + 1]) : T = U := by
  ext t ht
  obtain ⟨k, rfl | rfl⟩ := t.even_or_odd'
  · exact heven ⟨k, by omega⟩
  · exact hodd ⟨k, by omega⟩

theorem dilA_ilv {α : Type} (A B : Vector α 12) : dilA (ilv A B) = A := by
  ext k hk
  rw [dilA_getElem, ilv_odd]

theorem dilB_ilv {α : Type} (A B : Vector α 12) : dilB (ilv A B) = B := by
  ext k hk
  rw [dilB_getElem, ilv_even]

theorem ilv_dilA_dilB {α : Type} (T : Vector α 24) : ilv (dilA T) (dilB T) = T := by
  refine quad_ext (fun k => ?_) fun k => ?_
  · rw [ilv_even, dilB_getElem]
  · rw [ilv_odd, dilA_getElem]

/-- Settles O39: the slots are those of the layout functions' definitions, and each equation is checked slot by slot. -/
theorem layoutFunctionsAreInverse : Obligations.LayoutFunctionsAreInverse := by
  intro A B T
  exact ⟨fun k => ⟨ilv_even A B k.val _, ilv_odd A B k.val _, dilA_getElem T k.val k.isLt, dilB_getElem T k.val k.isLt⟩,
    dilA_ilv A B, dilB_ilv A B, ilv_dilA_dilB T⟩

/-! ### The quadratic commands (spec 42_quadratic_extension_codec R111 to R115) -/

/-- After two integer registers are written, both read back, if they are different and the values fit. -/
theorem State.getI_setInt_setInt (s : State) {a b : IReg} (hab : a ≠ b) {x y : Nat} (hx : x < 2 ^ 256) (hy : y < 2 ^ 256) :
    (((s.setInt a x).setInt b y).getI a).toNat = x ∧ (((s.setInt a x).setInt b y).getI b).toNat = y := by
  constructor
  · rw [State.getI_setInt, if_neg hab, State.getI_setInt, if_pos rfl, toNat_ofNat512 x hx]
  · rw [State.getI_setInt, if_pos rfl, toNat_ofNat512 y hy]

section QuadraticCommands

variable {s : State} (hf : s.faulted = false)
include hf

theorem exec_qilv (d : QReg) (a b : FReg) :
    exec (.qilv d a b) s = .next ((s.setQ d (ilv (s.getF a) (s.getF b))).setCode .ok) :=
  exec_eq_of_rule_ok hf rfl

theorem exec_qdil {a b : FReg} (hab : a ≠ b) (r : QReg) :
    exec (.qdil a b r) s = .next (((s.setF a (dilA (s.getQ r))).setF b (dilB (s.getQ r))).setCode .ok) :=
  exec_eq_of_rule_ok hf (if_neg hab)

theorem exec_qenc (d : QReg) {a b : IReg} {T : QuadReg}
    (h : fencPair s.params (s.getI a).toNat (s.getI b).toNat = some T) :
    exec (.qenc d a b) s = .next ((s.setQ d T).setCode .ok) :=
  exec_eq_of_rule_ok hf (by rw [ruleOf, qencRule, h]; rfl)

theorem exec_qdec {a b : IReg} (hab : a ≠ b) {r : QReg} (ha : ranged (digitsA (s.getQ r)))
    (hb : ranged (digitsB (s.getQ r))) :
    exec (.qdec a b r) s = .next (((s.setInt a (valueOf s.params (digitsA (s.getQ r)))).setInt b
      (valueOf s.params (digitsB (s.getQ r)))).setCode .ok) := by
  have hxa := (fdecReg_eq s.params (dilA (s.getQ r))).1
  have hxb := (fdecReg_eq s.params (dilB (s.getQ r))).1
  rw [fieldDigits_dilA] at hxa
  rw [fieldDigits_dilB] at hxb
  refine exec_eq_of_rule_ok hf ?_
  rw [ruleOf, qdecRule, if_neg hab, hxa ha, hxb hb]
  rfl

end QuadraticCommands

/-- Settles O40: the one register write is the interleaving, and its slots are those of `ilv`. -/
theorem qilvInterleaves : Obligations.QilvInterleaves := by
  intro s d a b hf
  have hwrites := (State.WritesOnly.refl s (touched := (· = .quad d))).setQ d (ilv (s.getF a) (s.getF b)) rfl
  refine ⟨_, exec_qilv hf d a b, hwrites.reports_setCode .ok, fun k => ?_, State.keepsBut_setCode hwrites.keeps .ok⟩
  rw [State.getQ_setCode_other, State.getQ_setQ_same]
  exact ⟨ilv_even _ _ k.val _, ilv_odd _ _ k.val _⟩

/-- Settles O41: the write of `b` leaves `a`, another register, as the first write made it. -/
theorem qdilDeinterleaves : Obligations.QdilDeinterleaves := by
  intro s a b r hf hab
  have hwrites := ((State.WritesOnly.refl s (touched := fun x => x = .field a ∨ x = .field b)).setF a
    (dilA (s.getQ r)) (.inl rfl)).setF b (dilB (s.getQ r)) (.inr rfl)
  refine ⟨_, exec_qdil hf hab r, hwrites.reports_setCode .ok, fun k => ⟨?_, ?_⟩, State.keepsBut_setCode hwrites.keeps .ok⟩
  · rw [State.getF_setCode_other, State.getF_setF, if_neg hab, State.getF_setF_same]
    exact dilA_getElem _ k.val k.isLt
  · rw [State.getF_setCode_other, State.getF_setF_same]
    exact dilB_getElem _ k.val k.isLt

/-- Settles O42: both checks pass, and the one register write holds the digits of both integers. -/
theorem qencEncodesBoth : Obligations.QencEncodesBoth := by
  intro s d a b hf ha hb
  obtain ⟨T, hT, hdigits⟩ := (fencPair_eq s.params _ _).1 ⟨ha, hb⟩
  have hwrites := (State.WritesOnly.refl s (touched := (· = .quad d))).setQ d T rfl
  refine ⟨_, exec_qenc hf d hT, hwrites.reports_setCode .ok, ?_, State.keepsBut_setCode hwrites.keeps .ok⟩
  rwa [State.getQ_setCode_other, State.getQ_setQ_same]

/-- Settles O43: both checks pass, and the two values, each below `P`, fit the two registers. -/
theorem qdecDecodesBoth : Obligations.QdecDecodesBoth := by
  intro s a b r hf hab hra hrb
  obtain ⟨-, hfitsA⟩ := valueOf_lt s.params (digitsA (s.getQ r))
  obtain ⟨-, hfitsB⟩ := valueOf_lt s.params (digitsB (s.getQ r))
  have hwrites := ((State.WritesOnly.refl s (touched := fun x => x = .int a ∨ x = .int b)).setInt a
    (valueOf s.params (digitsA (s.getQ r))) (.inl rfl)).setInt b (valueOf s.params (digitsB (s.getQ r))) (.inr rfl)
  obtain ⟨hvalueA, hvalueB⟩ := s.getI_setInt_setInt hab hfitsA hfitsB
  refine ⟨_, exec_qdec hf hab hra hrb, hwrites.reports_setCode .ok, ?_, ?_, State.keepsBut_setCode hwrites.keeps .ok⟩
  · rw [State.getI_setCode_other, hvalueA]
  · rw [State.getI_setCode_other, hvalueB]

/-- A representable integer's digits are in range (R106). -/
theorem ranged_of_digitOf {p : Params} {x : Nat} (h : representable p x) {d : Fin 12 → Int}
    (hd : ∀ k, d k = (digitOf p.V x k : Int)) : ranged d := by
  intro k
  have := digitOf_le p x k h
  have := hd k
  omega

/-- The value of the digits of an integer is its remainder mod `P` (R105, R107). -/
theorem valueOf_of_digitOf {p : Params} {x : Nat} {d : Fin 12 → Int} (hd : ∀ k, d k = (digitOf p.V x k : Int)) :
    valueOf p d = x % p.P := by
  have hsum : ∑ k : Fin 12, d k * (weight p.V k.val : Int) = x := by
    simp only [hd]
    exact_mod_cast sum_digitOf p.V x
  rw [valueOf_eq, hsum]
  rfl

/-- Settles O44: the digits QENC leaves are in range, so QDEC completes, and their values are the reduced integers. -/
theorem quadraticRoundTrip : Obligations.QuadraticRoundTrip := by
  intro s d a b e f hf hef ha hb
  have hrepA := representable_of_lt s.params _ ha
  have hrepB := representable_of_lt s.params _ hb
  obtain ⟨t, ht, ⟨-, hbits⟩, hdigits, -, hparams, -⟩ := qencEncodesBoth s d a b hf hrepA hrepB
  have hft : t.faulted = false := (hbits 8 (by decide)).trans hf
  have hdigitsA k := (hdigits k).1
  have hdigitsB k := (hdigits k).2
  obtain ⟨u, hu, ⟨hcode, -⟩, hvalueA, hvalueB, -⟩ := qdecDecodesBoth t e f d hft hef
    (ranged_of_digitOf hrepA hdigitsA) (ranged_of_digitOf hrepB hdigitsB)
  rw [hparams, valueOf_of_digitOf hdigitsA, Nat.mod_eq_of_lt ha] at hvalueA
  rw [hparams, valueOf_of_digitOf hdigitsB, Nat.mod_eq_of_lt hb] at hvalueB
  exact ⟨t, u, ht, hu, hcode, hvalueA, hvalueB⟩

end Sys2Proof.Machine

/-! ### The byte functions (spec 43_byte_serializer R120)

`beUint` is the value of the bytes as digits to base 256, the last byte the lowest; `be32` cuts 256 bits into the 32
digits. Each undoes the other. -/

namespace Sys2Proof.Machine

/-- The bytes, last one first, are the digits of `beUint` to base 256. -/
theorem beUint_eq_ofDigits (bs : List Byte) : beUint bs = Nat.ofDigits 256 (bs.reverse.map BitVec.toNat) := by
  simp [beUint, Nat.ofDigits_eq_foldr, List.foldl_map, Nat.mul_comm, Nat.add_comm]

theorem toNat_lt_of_mem_bytes {bs : List Byte} {d : Nat} (hd : d ∈ bs.reverse.map BitVec.toNat) : d < 256 := by
  obtain ⟨b, -, rfl⟩ := List.mem_map.1 hd
  exact b.isLt

theorem beUint_lt (bs : List Byte) : beUint bs < 256 ^ bs.length := by
  have hlt := Nat.ofDigits_lt_base_pow_length (by decide : 1 < 256) fun _ => toNat_lt_of_mem_bytes (bs := bs)
  rwa [← beUint_eq_ofDigits, List.length_map, List.length_reverse] at hlt

/-- The first byte is the most significant one (R120). -/
theorem beUint_cons (b : Byte) (bs : List Byte) : beUint (b :: bs) = b.toNat * 256 ^ bs.length + beUint bs := by
  simp only [beUint_eq_ofDigits, List.reverse_cons, List.map_append, Nat.ofDigits_append, List.map_cons, List.map_nil,
    Nat.ofDigits_singleton, List.length_map, List.length_reverse]
  ring

/-- The sum of R120, for a string of any length. -/
theorem beUint_eq_sum (bs : List Byte) :
    beUint bs = ∑ n : Fin bs.length, bs[n].toNat * 256 ^ (bs.length - 1 - n.val) := by
  induction bs with
  | nil => rfl
  | cons b bs ih =>
    have hplace (n : Fin bs.length) : bs.length - (n.val + 1) = bs.length - 1 - n.val := by omega
    rw [beUint_cons, ih]
    simp [Fin.sum_univ_succ, hplace]

/-- Strings of one length with the same integer are the same string. -/
theorem eq_of_beUint_eq {bs cs : List Byte} (hlen : bs.length = cs.length) (h : beUint bs = beUint cs) : bs = cs := by
  rw [beUint_eq_ofDigits, beUint_eq_ofDigits] at h
  have hdigits := Nat.ofDigits_inj_of_len_eq (by decide : 1 < 256) (by simpa using hlen)
    (fun _ => toNat_lt_of_mem_bytes) (fun _ => toNat_lt_of_mem_bytes) h
  exact List.reverse_injective (List.map_injective_iff.2 (fun _ _ => BitVec.eq_of_toNat_eq) hdigits)

/-- The first `n` bytes of `be32` hold the bits of `x` from their place on. -/
theorem beUint_be32_prefix {x n : Nat} (hx : x < 2 ^ 256) (hn : n ≤ 32) :
    beUint ((List.range n).map fun j => BitVec.ofNat 8 (x / 2 ^ (8 * (31 - j)))) = x / 2 ^ (8 * (32 - n)) := by
  induction n with
  | zero => exact (Nat.div_eq_of_lt hx).symm
  | succ n ih =>
    have hplace : 8 * (32 - n) = 8 * (31 - n) + 8 := by omega
    have hnext : 32 - (n + 1) = 31 - n := by omega
    rw [List.range_succ, List.map_append, List.map_singleton, beUint_append, ih (by omega), hplace, hnext, pow_add,
      ← Nat.div_div_eq_div_mul, BitVec.toNat_ofNat]
    exact Nat.div_add_mod' _ _

theorem beUint_be32 {x : Nat} (hx : x < 2 ^ 256) : beUint (be32 x) = x := by
  have hall := beUint_be32_prefix hx le_rfl
  rwa [Nat.sub_self, Nat.mul_zero, Nat.pow_zero, Nat.div_one] at hall

theorem beUint_lt_of_length {bs : List Byte} (h : bs.length = 32) : beUint bs < 2 ^ 256 := by
  have hlt := beUint_lt bs
  rwa [h] at hlt

theorem be32_beUint {bs : List Byte} (h : bs.length = 32) : be32 (beUint bs) = bs :=
  eq_of_beUint_eq ((be32_length _).trans h.symm) (beUint_be32 (beUint_lt_of_length h))

/-- Settles O46: `be_uint` undoes `be32` on 256 bits, and `be32` undoes `be_uint` because 32 bytes are determined by their
integer. -/
theorem byteFunctionsAreInverse : Obligations.ByteFunctionsAreInverse := by
  refine ⟨fun x hx => ⟨be32_length x, fun n h => ?_, beUint_be32 hx⟩,
    fun bs hlen => ⟨beUint_lt_of_length hlen, ?_, be32_beUint hlen⟩⟩
  · rw [be32_getElem, BitVec.toNat_ofNat]
  · rw [beUint_eq_sum]
    simp only [hlen]

/-! ### Elements of the buffer as integers (spec 43_byte_serializer R120, R123) -/

/-- An element is the big-endian form of an integer when its bytes are those of `be32`. -/
theorem State.elemIs_iff_readElem (s : State) (k x : Nat) : s.elemIs k x ↔ s.readElem k = be32 x := by
  have hread (n : Nat) (h : n < (s.readElem k).length) : (s.readElem k)[n] = s.buf.read (32 * k + n) :=
    Memory.readBytes_getElem _ _ _ _ _
  have hlen : (s.readElem k).length = 32 := Memory.readBytes_length _ _ _
  constructor
  · intro helem
    refine List.ext_getElem (hlen.trans (be32_length x).symm) fun n h h' => ?_
    rw [hread, be32_getElem, helem n (hlen ▸ h)]
  · intro hbytes n hn
    have hn' : n < (s.readElem k).length := hlen.symm ▸ hn
    rw [← hread n hn', ← be32_getElem x n ((be32_length x).symm ▸ hn)]
    simp only [hbytes]

theorem State.elemValue_lt (s : State) (k : Nat) : s.elemValue k < 2 ^ 256 := by
  rw [← beUint_readElem]
  exact beUint_lt_of_length (Memory.readBytes_length _ _ _)

/-- An element is the big-endian form of exactly one integer of 256 bits, the one it holds. -/
theorem State.elemIs_iff (s : State) (k : Nat) {x : Nat} (hx : x < 2 ^ 256) : s.elemIs k x ↔ s.elemValue k = x := by
  have hlen : (s.readElem k).length = 32 := Memory.readBytes_length _ _ _
  rw [State.elemIs_iff_readElem, ← beUint_readElem]
  exact ⟨fun h => h ▸ beUint_be32 hx, fun h => h ▸ (be32_beUint hlen).symm⟩

/-- After consecutive elements are written from element `k` on, each is the big-endian form of its integer (R130). -/
theorem State.elemIs_writeElems (s : State) (k : Nat) (xs : List Nat) (j : Nat) (hj : j < xs.length) :
    (s.setBuf (s.buf.writeElems (32 * k) xs)).elemIs (k + j) xs[j] := by
  intro n hn
  have hin : 32 * k ≤ 32 * (k + j) + n ∧ 32 * (k + j) + n < 32 * k + 32 * xs.length := by omega
  have helem : (32 * (k + j) + n - 32 * k) / 32 = j := by omega
  have hbyte : (32 * (k + j) + n - 32 * k) % 32 = n := by omega
  rw [State.setBuf_buf, Memory.read_writeElems, dif_pos hin]
  simp only [helem, hbyte]

/-! ### The byte commands (spec 43_byte_serializer R121 to R123) -/

section ByteCommands

variable {s : State} (hf : s.faulted = false)
include hf

theorem exec_ftob {r : FReg} (k : Elem) {x : Nat} (h : fdecReg s.params (s.getF r) = some x) :
    exec (.ftob r k) s = .next ((s.setBuf (s.buf.writeElems (32 * k.val) [x])).setCode .ok) :=
  exec_eq_of_rule_ok hf (by rw [ruleOf, ftobRule, h]; rfl)

theorem exec_btof (d : FReg) {k : Elem} {D : FieldReg} (h : s.fencElem k.val = some D) :
    exec (.btof d k) s = .next ((s.setF d D).setCode .ok) :=
  exec_eq_of_rule_ok hf (by rw [ruleOf, btofRule, h]; rfl)

end ByteCommands

/-- Settles O47: the check passes, and the one write is element `K`, as a run of one element. -/
theorem ftobWritesTheElement : Obligations.FtobWritesTheElement := by
  intro s r k hf hranged
  obtain ⟨hvalue, -⟩ := fdecReg_eq s.params (s.getF r)
  have hwrites := (State.WritesOnly.refl s (touched := fun x => ∃ n, n < 32 ∧ x = .byte (32 * k.val + n))).writeElems
    (32 * k.val) [valueOf s.params (fieldDigits (s.getF r))]
    (by have := k.isLt; simp only [List.length_singleton, bufBytes]; omega)
    fun b hlow hhigh => ⟨b - 32 * k.val, by rw [List.length_singleton] at hhigh; omega, by congr 1; omega⟩
  exact ⟨_, exec_ftob hf k (hvalue hranged), hwrites.reports_setCode .ok,
    s.elemIs_writeElems k.val [valueOf s.params (fieldDigits (s.getF r))] 0 Nat.zero_lt_one,
    State.keepsBut_setCode hwrites.keeps .ok⟩

/-- Settles O48: digit 11 is the one check there is, and the one register write is the digits. -/
theorem btofReadsTheElement : Obligations.BtofReadsTheElement := by
  intro s d k hf hrep
  obtain ⟨D, hD, hdigits⟩ := (s.fencElem_eq k.val).1 hrep
  have hwrites := (State.WritesOnly.refl s (touched := (· = .field d))).setF d D rfl
  refine ⟨_, exec_btof hf d hD, hwrites.reports_setCode .ok, ?_, State.keepsBut_setCode hwrites.keeps .ok⟩
  rwa [State.getF_setCode_other, State.getF_setF_same]

/-- After a command reports `OK` outside the fault state, the next one runs (R80, R168). -/
theorem State.reports.not_faulted {s t : State} {c : Code} (h : s.reports t c) (hf : s.faulted = false) :
    t.faulted = false := by
  obtain ⟨-, hbits⟩ := h
  exact (hbits 8 (by decide)).trans hf

/-- BTOF then FTOB on one element, where BTOF takes no fault: the element becomes that of its integer mod `P`, and no other
byte changes (R123). -/
theorem exec_btof_ftob {s : State} (d : FReg) (k : Elem) (hf : s.faulted = false)
    (hrep : representable s.params (s.elemValue k.val)) :
    ∃ t u, exec (.btof d k) s = .next t ∧ exec (.ftob d k) t = .next u ∧ u.code = Code.ok.num ∧
      u.elemIs k.val (s.elemValue k.val % s.params.P) ∧
      ∀ a, ¬ (∃ n, n < 32 ∧ a = 32 * k.val + n) → u.buf.read a = s.buf.read a := by
  obtain ⟨t, ht, hreports, hdigits, hsame, hparams, -⟩ := btofReadsTheElement s d k hf hrep
  obtain ⟨u, hu, ⟨hcode, -⟩, helem, hsame', -⟩ :=
    ftobWritesTheElement t d k (hreports.not_faulted hf) (ranged_of_digitOf hrep hdigits)
  rw [hparams, valueOf_of_digitOf hdigits] at helem
  refine ⟨t, u, ht, hu, hcode, helem, fun a ha => ?_⟩
  have htu : u.buf.read a = t.buf.read a :=
    hsame' (.byte a) fun ⟨n, hn, hbyte⟩ => ha ⟨n, hn, Reg.byte.inj hbyte⟩
  have hst : t.buf.read a = s.buf.read a := hsame (.byte a) nofun
  exact htu.trans hst

/-- Settles O49: (a) an integer below `P` is its own remainder, so every byte of the element is written as it was; (b) one
of `P` or more is not, and equal bytes would hold equal integers; (c) the element FTOB writes holds the value, which is
representable because it is below `P`. -/
theorem byteRoundTrips : Obligations.ByteRoundTrips := by
  intro s d k hf
  refine ⟨fun hlt => ?_, fun hge hrep => ?_, fun hranged e => ?_⟩
  · obtain ⟨t, u, ht, hu, hcode, helem, hother⟩ := exec_btof_ftob d k hf (representable_of_lt s.params _ hlt)
    have hstart : s.elemIs k.val (s.elemValue k.val) := (s.elemIs_iff k.val (s.elemValue_lt k.val)).2 rfl
    rw [Nat.mod_eq_of_lt hlt] at helem
    refine ⟨t, u, ht, hu, hcode, fun a => ?_⟩
    by_cases ha : ∃ n, n < 32 ∧ a = 32 * k.val + n
    · obtain ⟨n, hn, rfl⟩ := ha
      exact (helem n hn).trans (hstart n hn).symm
    · exact hother a ha
  · obtain ⟨t, u, ht, hu, hcode, helem, -⟩ := exec_btof_ftob d k hf hrep
    refine ⟨t, u, ht, hu, hcode, helem, ?_⟩
    have hlt : s.elemValue k.val % s.params.P < s.params.P := Nat.mod_lt _ (by have := s.params.p_two; omega)
    by_contra! hsame
    have hstart : s.elemIs k.val (s.elemValue k.val % s.params.P) := fun n hn => (hsame n hn).symm.trans (helem n hn)
    have hvalue := (s.elemIs_iff k.val (hlt.trans_le s.params.p_bytes)).1 hstart
    omega
  · obtain ⟨hltP, hfits⟩ := valueOf_lt s.params (fieldDigits (s.getF d))
    obtain ⟨t, ht, hreports, helem, -, hparams, -⟩ := ftobWritesTheElement s d k hf hranged
    have hvalue := (t.elemIs_iff k.val hfits).1 helem
    have hrep : representable t.params (t.elemValue k.val) := by
      rw [hparams, hvalue]
      exact representable_of_lt s.params _ hltP
    obtain ⟨u, hu, ⟨hcode, -⟩, hdigits, -⟩ := btofReadsTheElement t e k (hreports.not_faulted hf) hrep
    rw [hparams, hvalue] at hdigits
    exact ⟨t, u, ht, hu, hcode, hdigits⟩

end Sys2Proof.Machine

/-! ### The registers of the point codec in wire order (spec 44_point_codec R130, R132, R134, R136) -/

namespace Sys2Proof.Machine

/-- The registers of a G1 point, x before y (R132). -/
def State.wireFields (s : State) : Fin 2 → FieldReg := ![s.getF 0, s.getF 1]

/-- The halves of the first `n` quadratic registers, element a before element b of each (R130, R134, R136). -/
def State.wireHalves (s : State) {n : Nat} (hn : n ≤ 6) (k : Fin (2 * n)) : FieldReg :=
  if k.val % 2 = 0 then dilA (s.getQ ⟨k.val / 2, by omega⟩) else dilB (s.getQ ⟨k.val / 2, by omega⟩)

theorem ruleOf_mg1 (s : State) : ruleOf .mg1 s = s.marshal (List.ofFn s.wireFields) 64 := rfl

theorem ruleOf_mg2 (s : State) :
    ruleOf .mg2 s = s.marshal (List.ofFn (s.wireHalves (by decide : 2 ≤ 6))) 128 := rfl

theorem ruleOf_mgt (s : State) :
    ruleOf .mgt s = s.marshal (List.ofFn (s.wireHalves (by decide : 6 ≤ 6))) 384 := rfl

/-- What holds at every place of the wire order holds of both halves of every register, at its two places. -/
theorem forall_wireHalves {s : State} {n : Nat} (hn : n ≤ 6) (p : Nat → FieldReg → Prop) :
    (∀ k, p k.val (s.wireHalves hn k)) ↔
      ∀ j : QReg, j.val < n → p (2 * j.val) (dilA (s.getQ j)) ∧ p (2 * j.val + 1) (dilB (s.getQ j)) := by
  constructor
  · intro h j hj
    have ha := h ⟨2 * j.val, by omega⟩
    have hb := h ⟨2 * j.val + 1, by omega⟩
    have hodd : (2 * j.val + 1) / 2 = j.val := by omega
    simp only [State.wireHalves, Nat.mul_mod_right, Nat.mul_add_mod, hodd,
      Nat.mul_div_cancel_left _ Nat.two_pos] at ha hb
    exact ⟨ha, hb⟩
  · intro h k
    obtain ⟨ha, hb⟩ := h ⟨k.val / 2, by omega⟩ (show k.val / 2 < n by omega)
    rw [State.wireHalves]
    split
    · rwa [show 2 * (k.val / 2) = k.val by omega] at ha
    · rwa [show 2 * (k.val / 2) + 1 = k.val by omega] at hb

/-! ### Marshal commands (spec 44_point_codec R132, R134, R136) -/

section MarshalCommands

variable {s : State} {i : Instr} {n : Nat} {regs : Fin n → FieldReg} {len : BusWord} (hf : s.faulted = false)
  (hrule : ruleOf i s = s.marshal (List.ofFn regs) len)
include hf hrule

/-- A marshal command whose digits are all in range writes one element for each register, and the length. -/
theorem exec_marshal (hfit : 32 * n ≤ bufBytes) (hr : ∀ k, ranged (fieldDigits (regs k))) :
    ∃ t, exec i s = .next t ∧ s.reports t .ok ∧
      (∀ k : Fin n, t.elemIs k.val (valueOf s.params (fieldDigits (regs k)))) ∧ t.blen = len ∧
      s.keepsBut t (fun x => x = .blen ∨ ∃ b, b < 32 * n ∧ x = .byte b) := by
  have hok := (s.marshal_eq (List.ofFn regs) len).1 (List.forall_mem_ofFn_iff.2 hr)
  have hwrites := Ending.WritesOnly.marshal (s := s) (touched := fun x => x = .blen ∨ ∃ b, b < 32 * n ∧ x = .byte b)
    (List.length_ofFn (f := regs)) len hfit (fun b hb => .inr ⟨b, hb, rfl⟩) (.inl rfl) _ hok
  refine ⟨_, exec_eq_of_rule_ok hf (hrule.trans hok), hwrites.reports_setCode .ok, fun k => ?_, rfl,
    State.keepsBut_setCode hwrites.keeps .ok⟩
  have helem := s.elemIs_writeElems 0 ((List.ofFn regs).map fun r => valueOf s.params (fieldDigits r)) k.val (by simp)
  simp only [Nat.zero_add, List.getElem_map, List.getElem_ofFn] at helem
  exact helem

/-- A marshal command that ended `OK` found every digit in range: otherwise it takes the fault (R164). -/
theorem ranged_of_exec_marshal {t : State} (hexec : exec i s = .next t) (hcode : t.code = Code.ok.num) :
    ∀ k, ranged (fieldDigits (regs k)) := by
  by_contra hnot
  have hviolation := (s.marshal_eq (List.ofFn regs) len).2 (mt List.forall_mem_ofFn_iff.1 hnot)
  rw [exec_eq, (s.command_eq _).2 hf, hrule, hviolation] at hexec
  obtain ⟨hfault, -⟩ := s.reportsFault_takeFault
  cases hexec
  exact absurd (hfault.symm.trans hcode) (by decide)

end MarshalCommands

/-- A marshal of the first `n` quadratic registers: the two halves of each at their two places. -/
theorem exec_marshalHalves {s : State} {i : Instr} {n : Nat} {len : BusWord} (hn : n ≤ 6) (hf : s.faulted = false)
    (hrule : ruleOf i s = s.marshal (List.ofFn (s.wireHalves hn)) len)
    (hr : ∀ j : QReg, j.val < n → ranged (digitsA (s.getQ j)) ∧ ranged (digitsB (s.getQ j))) :
    ∃ t, exec i s = .next t ∧ s.reports t .ok ∧
      (∀ j : QReg, j.val < n → t.elemIs (2 * j.val) (valueOf s.params (digitsA (s.getQ j))) ∧
        t.elemIs (2 * j.val + 1) (valueOf s.params (digitsB (s.getQ j)))) ∧
      t.blen = len ∧ s.keepsBut t (fun x => x = .blen ∨ ∃ b, b < 32 * (2 * n) ∧ x = .byte b) := by
  have hranged := (forall_wireHalves (s := s) hn fun _ r => ranged (fieldDigits r)).2 (by simpa using hr)
  obtain ⟨t, ht, hreports, helem, hblen, hkeeps⟩ := exec_marshal hf hrule (by simp only [bufBytes]; omega) hranged
  have hhalves := (forall_wireHalves hn fun k r => t.elemIs k (valueOf s.params (fieldDigits r))).1 helem
  simp only [fieldDigits_dilA, fieldDigits_dilB] at hhalves
  exact ⟨t, ht, hreports, hhalves, hblen, hkeeps⟩

/-- Settles O50: the marshal of the two field registers. -/
theorem mg1WritesThePoint : Obligations.Mg1WritesThePoint := by
  intro s hf hx hy
  obtain ⟨t, ht, hreports, helem, hblen, hkeeps⟩ :=
    exec_marshal hf (ruleOf_mg1 s) (by decide) (Fin.forall_fin_two.2 ⟨hx, hy⟩)
  exact ⟨t, ht, hreports, helem 0, helem 1, hblen, hkeeps⟩

/-- Settles O51: the marshal of the first two quadratic registers. -/
theorem mg2WritesThePoint : Obligations.Mg2WritesThePoint := fun s hf hr =>
  exec_marshalHalves _ hf (ruleOf_mg2 s) hr

/-- Settles O52: the marshal of all six quadratic registers. -/
theorem mgtWritesTheElement : Obligations.MgtWritesTheElement := by
  intro s hf hr
  obtain ⟨t, ht, hreports, helem, hrest⟩ := exec_marshalHalves _ hf (ruleOf_mgt s) fun j _ => hr j
  exact ⟨t, ht, hreports, fun j => helem j j.isLt, hrest⟩

/-! ### The markers (spec 44_point_codec R139) -/

theorem digitOf_zero (V : Nat) (k : Fin 12) : digitOf V 0 k = 0 := by
  simp [digitOf]

/-- Digit 0 of one is one; for the others one is divided by a weight above it. -/
theorem digitOf_one {V : Nat} (hV : 0 < V) (k : Fin 12) : digitOf V 1 k = if k = 0 then 1 else 0 := by
  have hweight (c : Nat) (hc : 1 < c) (e : Nat) : 1 / (c * V ^ e) = 0 :=
    Nat.div_eq_of_lt (hc.trans_le (Nat.le_mul_of_pos_right c (Nat.pow_pos hV)))
  have hradix : 1 % (6 * V) = 1 := Nat.mod_eq_of_lt (by omega)
  simp only [digitOf, hweight 6 (by decide), hweight 36 (by decide), hradix, Nat.zero_mod, ite_self]

theorem holdsDigits_zeroField (V : Nat) : holdsDigits V 0 zeroField := by
  intro k
  rw [digitOf_zero]
  simp [fieldDigits, zeroField]

theorem fieldDigits_oneField (k : Fin 12) : fieldDigits oneField k = if k = 0 then 1 else 0 := by
  revert k
  decide

theorem holdsDigits_oneField {V : Nat} (hV : 0 < V) : holdsDigits V 1 oneField := by
  intro k
  rw [fieldDigits_oneField, digitOf_one hV]
  split <;> rfl

/-- An interleaved register holds a pair exactly when its two halves hold the two integers (R110). -/
theorem holdsPair_iff (V a b : Nat) (T : QuadReg) :
    holdsPair V a b T ↔ holdsDigits V a (dilA T) ∧ holdsDigits V b (dilB T) := by
  simp only [holdsPair, holdsDigits, fieldDigits_dilA, fieldDigits_dilB, forall_and]

theorem holdsPair_ilv {V a b : Nat} {A B : FieldReg} (ha : holdsDigits V a A) (hb : holdsDigits V b B) :
    holdsPair V a b (ilv A B) := by
  rw [holdsPair_iff, dilA_ilv, dilB_ilv]
  exact ⟨ha, hb⟩

theorem holdsPair_oneQuad {V : Nat} (hV : 0 < V) : holdsPair V 1 0 oneQuad :=
  holdsPair_ilv (holdsDigits_oneField hV) (holdsDigits_zeroField V)

theorem holdsPair_zeroQuad (V : Nat) : holdsPair V 0 0 zeroQuad :=
  holdsPair_ilv (holdsDigits_zeroField V) (holdsDigits_zeroField V)

/-! ### Unmarshal commands (spec 44_point_codec R133, R135, R137) -/

/-- A wire pair whose two integers are representable is read (R135, R137). -/
theorem State.exists_fencElemPair {s : State} {j : Nat} (ha : representable s.params (s.elemValue (2 * j)))
    (hb : representable s.params (s.elemValue (2 * j + 1))) :
    ∃ T, s.fencElemPair j = some T ∧ holdsPair s.params.V (s.elemValue (2 * j)) (s.elemValue (2 * j + 1)) T := by
  rw [State.fencElemPair_eq]
  exact (fencPair_eq s.params _ _).1 ⟨ha, hb⟩

section UnmarshalCommands

variable {s : State} (hf : s.faulted = false)
include hf

theorem exec_ug1 (hlen : s.blen = 64) {x y : FieldReg} (hx : s.fencElem 0 = some x) (hy : s.fencElem 1 = some y) :
    exec .ug1 s = .next (((((s.setF 0 x).setF 1 y).setF 2 oneField).setF 3 zeroField).setCode .ok) :=
  exec_eq_of_rule_ok hf (by rw [ruleOf, ug1Rule, if_neg (not_not_intro hlen), hx, hy]; rfl)

theorem exec_ug2 (hlen : s.blen = 128) {x y : QuadReg} (hx : s.fencElemPair 0 = some x)
    (hy : s.fencElemPair 1 = some y) :
    exec .ug2 s = .next (((((s.setQ 0 x).setQ 1 y).setQ 2 oneQuad).setQ 3 zeroQuad).setCode .ok) :=
  exec_eq_of_rule_ok hf (by rw [ruleOf, ug2Rule, if_neg (not_not_intro hlen), hx, hy]; rfl)

theorem exec_ugt (hlen : s.blen = 384) {T : QReg → QuadReg} (hT : ∀ j : QReg, s.fencElemPair j.val = some (T j)) :
    exec .ugt s = .next (((((((s.setQ 0 (T 0)).setQ 1 (T 1)).setQ 2 (T 2)).setQ 3 (T 3)).setQ 4 (T 4)).setQ 5
      (T 5)).setCode .ok) :=
  exec_eq_of_rule_ok hf (by
    rw [ruleOf, ugtRule, if_neg (not_not_intro hlen), show s.fencElemPair 0 = _ from hT 0,
      show s.fencElemPair 1 = _ from hT 1, show s.fencElemPair 2 = _ from hT 2, show s.fencElemPair 3 = _ from hT 3,
      show s.fencElemPair 4 = _ from hT 4, show s.fencElemPair 5 = _ from hT 5]
    rfl)

end UnmarshalCommands

/-- Settles O53: both digit checks pass, and the four writes are to the four field registers. -/
theorem ug1ReadsThePoint : Obligations.Ug1ReadsThePoint := by
  intro s hf hlen hrepX hrepY
  obtain ⟨x, hx, hdigitsX⟩ := (s.fencElem_eq 0).1 hrepX
  obtain ⟨y, hy, hdigitsY⟩ := (s.fencElem_eq 1).1 hrepY
  have hwrites := ((((State.WritesOnly.refl s (touched := fun r => ∃ i, r = .field i)).setF 0 x ⟨0, rfl⟩).setF 1 y
    ⟨1, rfl⟩).setF 2 oneField ⟨2, rfl⟩).setF 3 zeroField ⟨3, rfl⟩
  refine ⟨_, exec_ug1 hf hlen hx hy, hwrites.reports_setCode .ok, ?_, ?_, ?_, ?_,
    State.keepsBut_setCode hwrites.keeps .ok⟩
  · simpa [State.getF_setF] using hdigitsX
  · simpa [State.getF_setF] using hdigitsY
  · simpa [State.getF_setF] using holdsDigits_oneField s.params.v_pos
  · simpa [State.getF_setF] using holdsDigits_zeroField s.params.V

/-- Settles O54: both pairs pass their digit checks, and the four writes are to the first four quadratic registers. -/
theorem ug2ReadsThePoint : Obligations.Ug2ReadsThePoint := by
  intro s hf hlen hrep
  obtain ⟨x, hx, hpairX⟩ := s.exists_fencElemPair (j := 0) (hrep 0 (by decide)) (hrep 1 (by decide))
  obtain ⟨y, hy, hpairY⟩ := s.exists_fencElemPair (j := 1) (hrep 2 (by decide)) (hrep 3 (by decide))
  have hwrites := ((((State.WritesOnly.refl s (touched := fun r => ∃ i : QReg, i.val < 4 ∧ r = .quad i)).setQ 0 x
    ⟨0, by decide, rfl⟩).setQ 1 y ⟨1, by decide, rfl⟩).setQ 2 oneQuad ⟨2, by decide, rfl⟩).setQ 3 zeroQuad
    ⟨3, by decide, rfl⟩
  refine ⟨_, exec_ug2 hf hlen hx hy, hwrites.reports_setCode .ok, ?_, ?_, ?_, ?_,
    State.keepsBut_setCode hwrites.keeps .ok⟩
  · simpa [State.getQ_setQ] using hpairX
  · simpa [State.getQ_setQ] using hpairY
  · simpa [State.getQ_setQ] using holdsPair_oneQuad s.params.v_pos
  · simpa [State.getQ_setQ] using holdsPair_zeroQuad s.params.V

/-- Settles O55: all six pairs pass their digit checks, and each is written to its own register. -/
theorem ugtReadsTheElement : Obligations.UgtReadsTheElement := by
  intro s hf hlen hrep
  have hread (j : QReg) := s.exists_fencElemPair (hrep (2 * j.val) (by omega)) (hrep (2 * j.val + 1) (by omega))
  choose T hT hpair using hread
  have hwrites := ((((((State.WritesOnly.refl s (touched := fun r => ∃ i, r = .quad i)).setQ 0 (T 0) ⟨0, rfl⟩).setQ 1
    (T 1) ⟨1, rfl⟩).setQ 2 (T 2) ⟨2, rfl⟩).setQ 3 (T 3) ⟨3, rfl⟩).setQ 4 (T 4) ⟨4, rfl⟩).setQ 5 (T 5) ⟨5, rfl⟩
  refine ⟨_, exec_ugt hf hlen hT, hwrites.reports_setCode .ok, fun j => ?_, State.keepsBut_setCode hwrites.keeps .ok⟩
  have hwritten : (((((((s.setQ 0 (T 0)).setQ 1 (T 1)).setQ 2 (T 2)).setQ 3 (T 3)).setQ 4 (T 4)).setQ 5
      (T 5)).setCode .ok).getQ j = T j := by
    fin_cases j <;> simp [State.getQ_setQ]
  exact hwritten ▸ hpair j

/-! ### Marshal, unmarshal, marshal (spec 44_point_codec R138)

The marshal leaves integers below `P`, so the unmarshal takes no fault and the registers then hold their digits; the
second marshal writes the same integers over the same elements. -/

/-- On the length `len` and `n` representable elements, `u` ends `OK` with the digits of the elements in `regs` and
changes no byte. -/
def unmarshalsInto (u : Instr) (len : BusWord) {n : Nat} (regs : State → Fin n → FieldReg) : Prop :=
  ∀ s : State, s.faulted = false → s.blen = len → (∀ k, k < n → representable s.params (s.elemValue k)) →
    ∃ t, exec u s = .next t ∧ s.reports t .ok ∧
      (∀ k : Fin n, holdsDigits s.params.V (s.elemValue k.val) (regs t k)) ∧ t.params = s.params ∧
      ∀ a, t.buf.read a = s.buf.read a

theorem ug1_unmarshalsInto : unmarshalsInto .ug1 64 State.wireFields := by
  intro s hf hlen hrep
  obtain ⟨t, ht, hreports, hx, hy, -, -, hsame, hparams, -⟩ :=
    ug1ReadsThePoint s hf hlen (hrep 0 (by decide)) (hrep 1 (by decide))
  exact ⟨t, ht, hreports, Fin.forall_fin_two.2 ⟨hx, hy⟩, hparams, fun a => hsame (.byte a) nofun⟩

theorem ug2_unmarshalsInto : unmarshalsInto .ug2 128 fun s => s.wireHalves (by decide : 2 ≤ 6) := by
  intro s hf hlen hrep
  obtain ⟨t, ht, hreports, hx, hy, -, -, hsame, hparams, -⟩ := ug2ReadsThePoint s hf hlen hrep
  refine ⟨t, ht, hreports, ?_, hparams, fun a => hsame (.byte a) nofun⟩
  refine (forall_wireHalves _ fun k r => holdsDigits s.params.V (s.elemValue k) r).2 fun j hj => ?_
  obtain rfl | rfl := (by decide : ∀ j : QReg, j.val < 2 → j = 0 ∨ j = 1) j hj
  · exact (holdsPair_iff ..).1 hx
  · exact (holdsPair_iff ..).1 hy

theorem ugt_unmarshalsInto : unmarshalsInto .ugt 384 fun s => s.wireHalves (by decide : 6 ≤ 6) := by
  intro s hf hlen hrep
  obtain ⟨t, ht, hreports, hpair, hsame, hparams, -⟩ := ugtReadsTheElement s hf hlen hrep
  refine ⟨t, ht, hreports, ?_, hparams, fun a => hsame (.byte a) nofun⟩
  exact (forall_wireHalves _ fun k r => holdsDigits s.params.V (s.elemValue k) r).2 fun j _ =>
    (holdsPair_iff ..).1 (hpair j)

/-- States whose first `n` elements hold the same integers, and whose other bytes agree, have the same bytes. -/
theorem State.read_eq_of_elemIs {s t : State} {n : Nat} {x : Fin n → Nat} (hs : ∀ k, s.elemIs k.val (x k))
    (ht : ∀ k, t.elemIs k.val (x k)) (hother : ∀ a, 32 * n ≤ a → t.buf.read a = s.buf.read a) (a : Nat) :
    t.buf.read a = s.buf.read a := by
  by_cases ha : a < 32 * n
  · have hk : a / 32 < n := by omega
    have hbyte := (ht ⟨a / 32, hk⟩ (a % 32) (by omega)).trans (hs ⟨a / 32, hk⟩ (a % 32) (by omega)).symm
    rwa [Nat.div_add_mod] at hbyte
  · exact hother a (by omega)

/-- A marshal command and an unmarshal command over the same registers and length satisfy R138. -/
theorem marshal_unmarshal_marshal {m u : Instr} {len : BusWord} {n : Nat} {regs : State → Fin n → FieldReg}
    (hfit : 32 * n ≤ bufBytes) (hm : ∀ s, ruleOf m s = s.marshal (List.ofFn (regs s)) len)
    (hu : unmarshalsInto u len regs) {s t : State} (hf : s.faulted = false) (hexec : exec m s = .next t)
    (hcode : t.code = Code.ok.num) :
    ∃ v w, exec u t = .next v ∧ v.code = Code.ok.num ∧ exec m v = .next w ∧ w.code = Code.ok.num ∧
      w.blen = t.blen ∧ ∀ a, w.buf.read a = t.buf.read a := by
  have hranged := ranged_of_exec_marshal hf (hm s) hexec hcode
  obtain ⟨t', ht', hreportsT, helemT, hblenT, -, hparamsT, -⟩ := exec_marshal hf (hm s) hfit hranged
  obtain rfl : t = t' := Host.Outcome.next.inj (hexec.symm.trans ht')
  have hvalue (k : Fin n) : t.elemValue k.val = valueOf s.params (fieldDigits (regs s k)) :=
    (t.elemIs_iff k.val (valueOf_lt _ _).2).1 (helemT k)
  have hlt (k : Nat) (hk : k < n) : t.elemValue k < t.params.P := by
    rw [hparamsT, hvalue ⟨k, hk⟩]
    exact (valueOf_lt _ _).1
  have hrep (k : Nat) (hk : k < n) : representable t.params (t.elemValue k) := representable_of_lt _ _ (hlt k hk)
  obtain ⟨v, hv, hreportsV, hdigits, hparamsV, hbytesV⟩ := hu t (hreportsT.not_faulted hf) hblenT hrep
  have hfv : v.faulted = false := hreportsV.not_faulted (hreportsT.not_faulted hf)
  obtain ⟨hcodeV, -⟩ := hreportsV
  obtain ⟨w, hw, ⟨hcodeW, -⟩, helemW, hblenW, hsameW, -⟩ := exec_marshal hfv (hm v) hfit fun k =>
    ranged_of_digitOf (hrep k.val k.isLt) (hdigits k)
  have hvalueV (k : Fin n) : valueOf v.params (fieldDigits (regs v k)) = valueOf s.params (fieldDigits (regs s k)) := by
    rw [hparamsV, valueOf_of_digitOf (hdigits k), Nat.mod_eq_of_lt (hlt k.val k.isLt), hvalue]
  simp only [hvalueV] at helemW
  refine ⟨v, w, hv, hcodeV, hw, hcodeW, hblenW.trans hblenT.symm,
    State.read_eq_of_elemIs helemT helemW fun a ha => ?_⟩
  have hwv : w.buf.read a = v.buf.read a := hsameW (.byte a) (by rintro (⟨⟨⟩⟩ | ⟨b, hb, ⟨⟩⟩); omega)
  exact hwv.trans (hbytesV a)

/-- Settles O57: the three pairs of commands work over the same registers and the same length. -/
theorem marshalIsIdempotent : Obligations.MarshalIsIdempotent := by
  rintro s t m u (⟨rfl, rfl⟩ | ⟨rfl, rfl⟩ | ⟨rfl, rfl⟩) hf hexec hcode
  · exact marshal_unmarshal_marshal (by decide) ruleOf_mg1 ug1_unmarshalsInto hf hexec hcode
  · exact marshal_unmarshal_marshal (by decide) ruleOf_mg2 ug2_unmarshalsInto hf hexec hcode
  · exact marshal_unmarshal_marshal (by decide) ruleOf_mgt ugt_unmarshalsInto hf hexec hcode

end Sys2Proof.Machine

/-! ### The system command (spec 45_system R150) -/

namespace Sys2Proof.Machine

/-- In the fault state no command has an effect (R80, R168). -/
theorem exec_of_faulted {s : State} (hf : s.faulted = true) (i : Instr) : exec i s = .next s := by
  rw [exec_eq, (s.command_eq _).1 hf]

/-- Outside the fault state `NOP` writes `CODE` and does nothing else (R150). -/
theorem exec_nop {s : State} (hf : s.faulted = false) : exec .nop s = .next (s.setCode .ok) :=
  exec_eq_of_rule_ok hf rfl

/-- Settles O29: the word 0 is the encoding of `NOP`, and its rule ends `OK` in the state it started from. -/
theorem nopOnlyClearsTheCode : Obligations.NopOnlyClearsTheCode := by
  refine ⟨decodeOfEncodedCommand .nop rfl, fun s => ⟨fun hf => ?_, fun hf => exec_of_faulted hf .nop⟩⟩
  exact ⟨s.setCode .ok, exec_nop hf, s.reports_setCode .ok, State.keepsBut_setCode (s.keepsBut_refl _) .ok⟩

end Sys2Proof.Machine

/-! ### How a command ends (spec 60_exceptions R160 to R169)

Outside the fault state a command concludes the ending of its rule (`exec_eq_conclude`). So each statement below asks one
thing of the ending: which check chose it (`ruleOf_of_illFormed` to `ruleOf_endsByDigits`), or what two runs of the rule
have in common (`ruleOf_sameWrites`). -/

namespace Sys2Proof.Machine

/-- In the fault state a word written to `CMD` has no effect (R31, R168). -/
theorem runWord_of_faulted {s : State} (hf : s.faulted = true) (c : BusWord) : runWord c s = .next s := by
  obtain ⟨i, -, hrun⟩ | ⟨-, -, hrun⟩ := runWord_eq c s
  all_goals rw [hrun, (s.command_eq _).1 hf]

/-- Outside the fault state a command concludes the ending of its rule (R80). -/
theorem exec_eq_conclude {s : State} (hf : s.faulted = false) (i : Instr) :
    exec i s = .next (s.conclude (ruleOf i s)) := by
  rw [exec_eq, (s.command_eq _).2 hf]

/-- A command that ends with a signal reports its code and touches no register (R80, R167). -/
theorem exec_of_signal {i : Instr} {s : State} {c : Code} (hf : s.faulted = false)
    (h : s.conclude (ruleOf i s) = s.setCode c) :
    ∃ t, exec i s = .next t ∧ s.reports t c ∧ s.keepsBut t (fun _ => False) :=
  ⟨s.setCode c, h ▸ exec_eq_conclude hf i, s.reports_setCode c, State.keepsBut_setCode (s.keepsBut_refl _) c⟩

/-- A command step that does not end `OK` has written `STATUS` at most (R167): the fault state writes nothing, a signal
its code, the fault its code and `FAULT`. -/
theorem State.eq_of_command_failed {s t : State} {rule : State → Ending} (h : s.command rule = .next t)
    (hcode : t.code ≠ Code.ok.num) : t = { s with status := t.status } := by
  obtain ⟨-, rfl⟩ | ⟨-, rfl⟩ := State.command_cases s t rule h
  · rfl
  · cases he : rule s with
    | ok t => exact absurd (by rw [he]; exact t.code_setCode .ok) hcode
    | lengthMismatch | encodingOverflow | illegalCommand | contractViolation => rfl

/-- Settles O22: a command and a word are both command steps of some rule. -/
theorem failedCommandWritesOnlyStatus : Obligations.FailedCommandWritesOnlyStatus := by
  constructor
  · intro i s t h hcode
    exact State.eq_of_command_failed (exec_eq i s ▸ h) hcode
  · intro c s t h hcode
    obtain ⟨i, -, hrun⟩ | ⟨-, -, hrun⟩ := runWord_eq c s
    all_goals exact State.eq_of_command_failed (hrun ▸ h) hcode

/-- Settles O7: the step runs the word, which signals IllegalCommand on the state without the transaction. -/
theorem illegalWordOnlySetsTheCode : Obligations.IllegalWordOnlySetsTheCode := by
  intro s c e rest hport hdec hf
  obtain ⟨t, ht, hreports, hkeeps⟩ :=
    State.command_illegalCommand (s := { s with port := rest }) (rule := fun _ => .illegalCommand) hf rfl
  refine ⟨t, ?_, hreports, hkeeps, State.reports.not_faulted hreports hf⟩
  rw [step_of_port hport, serve_write_cmd, runWord, hdec]
  exact ht

/-- Settles O9: there is nothing to fetch. -/
theorem idleKeepsAllState : Obligations.IdleKeepsAllState := by
  intro s hport
  rw [step, State.fetch, hport]

/-! ### The fault state at the port (spec 60_exceptions R168) -/

/-- Of the words `STATUS` can hold, only 0x104 has `FAULT` set (R29, R168). -/
theorem State.legal.status_of_faulted {s : State} (h : s.legal) (hf : s.faulted = true) : s.status = 0x104 := by
  obtain ⟨hstatus, -⟩ := h
  rw [State.faulted] at hf
  obtain hw | hw | hw | hw | hw := hstatus
  case inr.inr.inr.inr => exact hw
  all_goals exact absurd (hw ▸ hf) (by decide)

/-- In the fault state every transaction but the reset input leaves `STATUS` as it is (R168). -/
theorem serve_status_of_faulted {r : Request} {s t : State} (hf : s.faulted = true) (hr : r ≠ .reset)
    (h : serve r s = .next t) : t.status = s.status := by
  obtain ⟨hreset, -⟩ | ⟨off, -, -, -, rfl⟩ | ⟨off, v, -, -, -, ⟨-, hrun⟩ | ⟨-, rfl⟩⟩ := serve_cases r s t h
  · exact absurd hreset hr
  · exact s.reply_status _
  · rw [runWord_of_faulted hf] at hrun
    cases hrun
    rfl
  · obtain ⟨hstatus, -⟩ := s.writeTarget_frame (target off) v
    exact hstatus

/-- Settles O8: taking the transaction off the host's list leaves the unit in the fault state, and the port serves it
there. -/
theorem faultStateLastsUntilReset : Obligations.FaultStateLastsUntilReset := by
  intro s r rest hlegal hf hport
  have hfetched : State.faulted { s with port := rest } = true := hf
  have hstatus := hlegal.status_of_faulted hf
  refine ⟨hstatus, ?_, fun t hr hstep => ?_, ?_, ?_, ?_⟩
  · rintro c rfl
    rw [step_of_port hport, serve_write_cmd, runWord_of_faulted hfetched]
  · rw [step_of_port hport] at hstep
    exact (serve_status_of_faulted hfetched hr hstep).trans hstatus
  · rintro off v hw ha hcmd rfl
    rw [step_write hw ha hcmd hport, s.writeTarget_withPort rest]
  · rintro off hw ha rfl
    exact step_read hw ha hport
  · rintro rfl
    refine ⟨_, step_of_port hport, ?_⟩
    rw [State.faulted, State.resetInput_status]
    rfl

/-! ### Which check chooses the ending (spec 60_exceptions R162 to R166) -/

theorem ruleOf_of_illFormed {i : Instr} (h : i.wellFormed = false) (s : State) : ruleOf i s = .illegalCommand := by
  cases i with
  | qdil a b r | qdec a b r => exact if_pos (bne_eq_false_iff_eq.1 h)
  | _ => cases h

theorem ruleOf_of_lengthFails {i : Instr} {s : State} (h : i.lengthFails s) : ruleOf i s = .lengthMismatch := by
  obtain ⟨n, hwants, hne⟩ := h
  cases i with
  | ug1 | ug2 | ugt =>
    cases hwants
    exact if_pos hne
  | _ => cases hwants

theorem ruleOf_of_widthFails {i : Instr} {s : State} (h : i.widthFails s) : ruleOf i s = .encodingOverflow := by
  obtain ⟨d, r, rfl, hwide⟩ := h
  exact if_pos hwide

/-- An unmarshal command past its length check has found its one length (R162). -/
theorem blen_eq_of_not_lengthFails {i : Instr} {s : State} {n : BusWord} (h : ¬ i.lengthFails s)
    (hwants : i.wantsLength = some n) : s.blen = n :=
  by_contra fun hne => h ⟨n, hwants, hne⟩

/-- The ending rests on digit checks of which `fails` says that one fails (R164): it is ContractViolation then, and `OK`
otherwise. -/
def Ending.EndsByDigits (e : Ending) (fails : Prop) : Prop :=
  (fails → e = .contractViolation) ∧ (¬ fails → ∃ t, e = .ok t)

theorem Ending.EndsByDigits.ok (t : State) : (Ending.ok t).EndsByDigits False := ⟨False.elim, fun _ => ⟨t, rfl⟩⟩

theorem Ending.EndsByDigits.congr {e : Ending} {p q : Prop} (h : e.EndsByDigits p) (hpq : q ↔ p) : e.EndsByDigits q := by
  rwa [hpq]

/-- One digit check before others: the first to fail decides, and they all decide the same (R164, R166). -/
theorem Ending.EndsByDigits.check {α : Type} {o : Option α} {f : α → Option State} {p q : Prop} (ho : o = none ↔ p)
    (hf : ∀ x, (Ending.ofChecked (f x)).EndsByDigits q) : (Ending.ofChecked (o >>= f)).EndsByDigits (p ∨ q) := by
  cases o with
  | none => exact ⟨fun _ => rfl, fun h => absurd (.inl (ho.1 rfl)) h⟩
  | some x =>
    have hp : ¬ p := fun hp => nomatch ho.2 hp
    obtain ⟨hviolation, hok⟩ := hf x
    exact ⟨fun h => hviolation (h.resolve_left hp), fun h => hok fun hq => h (.inr hq)⟩

theorem fencReg_eq_none_iff (p : Params) (x : Nat) : fencReg p x = none ↔ ¬ representable p x := by
  refine ⟨fun hnone hrep => ?_, fencReg_of_not_representable p x⟩
  obtain ⟨r, hr, -⟩ := fencReg_of_representable p x hrep
  cases hnone.symm.trans hr

theorem fencPair_eq_none_iff (p : Params) (a b : Nat) :
    fencPair p a b = none ↔ ¬ representable p a ∨ ¬ representable p b := by
  rw [← not_and_or]
  obtain ⟨hsome, hnone⟩ := fencPair_eq p a b
  refine ⟨fun h hrep => ?_, hnone⟩
  obtain ⟨T, hT, -⟩ := hsome hrep
  cases h.symm.trans hT

theorem fdecReg_eq_none_iff (p : Params) (r : FieldReg) : fdecReg p r = none ↔ ¬ ranged (fieldDigits r) := by
  obtain ⟨hsome, hnone⟩ := fdecReg_eq p r
  exact ⟨fun h hr => (nomatch h.symm.trans (hsome hr)), hnone⟩

theorem State.fencElem_eq_none_iff (s : State) (k : Nat) :
    s.fencElem k = none ↔ ¬ representable s.params (s.elemValue k) := by
  rw [State.fencElem, fencReg_eq_none_iff, beUint_readElem]

theorem State.fencElemPair_eq_none_iff (s : State) (j : Nat) : s.fencElemPair j = none ↔
    ¬ representable s.params (s.elemValue (2 * j)) ∨ ¬ representable s.params (s.elemValue (2 * j + 1)) := by
  rw [s.fencElemPair_eq, fencPair_eq_none_iff]

/-- A marshal checks the digits of every register it decodes (R132, R134, R136). -/
theorem State.marshal_endsByDigits (s : State) (rs : List FieldReg) (len : BusWord) :
    (s.marshal rs len).EndsByDigits (∃ d ∈ rs.map fieldDigits, ¬ ranged d) := by
  obtain ⟨hok, hviolation⟩ := s.marshal_eq rs len
  have hfails : (∃ d ∈ rs.map fieldDigits, ¬ ranged d) ↔ ¬ ∀ r ∈ rs, ranged (fieldDigits r) := by
    simp only [List.mem_map, exists_exists_and_eq_and, not_forall, exists_prop]
  rw [hfails]
  exact ⟨hviolation, fun h => ⟨_, hok (not_not.1 h)⟩⟩

/-- A command that applies neither `fenc` nor `fdec` fails no digit check (R164). -/
theorem not_digitsFail {i : Instr} {s : State} (hencodes : i.encodes s = []) (hdecodes : i.decodes s = []) :
    ¬ i.digitsFail s := by
  rw [Instr.digitsFail, hencodes, hdecodes]
  simp

/-- The rule of a command that passes its other checks ends as its digit checks decide: command by command, what it applies
`fenc` and `fdec` to is what `Instr.encodes` and `Instr.decodes` list (R164). -/
theorem ruleOf_endsByDigits {i : Instr} {s : State} (hwf : i.wellFormed = true) (hlen : ¬ i.lengthFails s)
    (hwidth : ¬ i.widthFails s) : (ruleOf i s).EndsByDigits (i.digitsFail s) := by
  have unchecked (t : State) (h : ¬ i.digitsFail s) : (Ending.ok t).EndsByDigits (i.digitsFail s) :=
    .congr (.ok t) (iff_false_intro h)
  cases i with
  | nop | sdec d r | qilv d a b => exact unchecked _ (not_digitsFail rfl rfl)
  | senc d r =>
    rw [ruleOf, sencRule, if_neg fun h => hwidth ⟨d, r, rfl, h⟩]
    exact unchecked _ (not_digitsFail rfl rfl)
  | qdil a b r =>
    rw [ruleOf, qdilRule, if_neg (bne_iff_ne.1 hwf)]
    exact unchecked _ (not_digitsFail rfl rfl)
  | fenc d r =>
    refine .congr (.check (fencReg_eq_none_iff _ _) fun D => .ok _) ?_
    simp [Instr.digitsFail, Instr.encodes, Instr.decodes]
  | fdec d r =>
    refine .congr (.check (fdecReg_eq_none_iff _ _) fun x => .ok _) ?_
    simp [Instr.digitsFail, Instr.encodes, Instr.decodes]
  | qenc d a b =>
    refine .congr (.check (fencPair_eq_none_iff _ _ _) fun T => .ok _) ?_
    simp [Instr.digitsFail, Instr.encodes, Instr.decodes]
  | qdec a b r =>
    rw [ruleOf, qdecRule, if_neg (bne_iff_ne.1 hwf)]
    refine .congr (.check (fdecReg_eq_none_iff _ _) fun xa => .check (fdecReg_eq_none_iff _ _) fun xb => .ok _) ?_
    simp [Instr.digitsFail, Instr.encodes, Instr.decodes]
  | ftob r k =>
    refine .congr (.check (fdecReg_eq_none_iff _ _) fun x => .ok _) ?_
    simp [Instr.digitsFail, Instr.encodes, Instr.decodes]
  | btof d k =>
    refine .congr (.check (s.fencElem_eq_none_iff _) fun D => .ok _) ?_
    simp [Instr.digitsFail, Instr.encodes, Instr.decodes]
  | ug1 =>
    rw [ruleOf, ug1Rule, if_neg (not_not.2 (blen_eq_of_not_lengthFails hlen rfl))]
    refine .congr (.check (s.fencElem_eq_none_iff 0) fun x => .check (s.fencElem_eq_none_iff 1) fun y => .ok _) ?_
    simp [Instr.digitsFail, Instr.encodes, Instr.decodes]
  | ug2 =>
    rw [ruleOf, ug2Rule, if_neg (not_not.2 (blen_eq_of_not_lengthFails hlen rfl))]
    refine .congr (.check (s.fencElemPair_eq_none_iff 0) fun x => .check (s.fencElemPair_eq_none_iff 1) fun y => .ok _) ?_
    simp [Instr.digitsFail, Instr.encodes, Instr.decodes, List.range_succ, or_assoc]
  | ugt =>
    rw [ruleOf, ugtRule, if_neg (not_not.2 (blen_eq_of_not_lengthFails hlen rfl))]
    refine .congr (.check (s.fencElemPair_eq_none_iff 0) fun q0 => .check (s.fencElemPair_eq_none_iff 1) fun q1 =>
      .check (s.fencElemPair_eq_none_iff 2) fun q2 => .check (s.fencElemPair_eq_none_iff 3) fun q3 =>
      .check (s.fencElemPair_eq_none_iff 4) fun q4 => .check (s.fencElemPair_eq_none_iff 5) fun q5 => .ok _) ?_
    simp [Instr.digitsFail, Instr.encodes, Instr.decodes, List.range_succ, or_assoc]
  | mg1 =>
    refine .congr (s.marshal_endsByDigits _ _) ?_
    simp [Instr.digitsFail, Instr.encodes, Instr.decodes]
  | mg2 =>
    refine .congr (s.marshal_endsByDigits _ _) ?_
    simp [Instr.digitsFail, Instr.encodes, Instr.decodes, halves]
  | mgt =>
    refine .congr (s.marshal_endsByDigits _ _) ?_
    simp [Instr.digitsFail, Instr.encodes, Instr.decodes, halves, List.finRange_succ]

/-- Settles O26: the step outside the fault state concludes the ending of the rule, and the checks choose that ending in
the order of R166. -/
theorem outcomeIsTheFirstFailingCheck : Obligations.OutcomeIsTheFirstFailingCheck := by
  intro i s
  cases hf : s.faulted with
  | true => exact ⟨s, exec_of_faulted hf i, fun _ => rfl, nofun⟩
  | false =>
    refine ⟨_, exec_eq_conclude hf i, nofun, fun _ => ⟨fun c e hdec => ?_, fun hwf => ?_, fun _ hlen => ?_,
      fun _ _ hwidth => ?_, fun hwf hlen hwidth hdigits => ?_, fun hwf hlen hwidth hdigits => ?_⟩⟩
    · obtain ⟨u, hu, hreports, -⟩ := State.command_illegalCommand (rule := fun _ => .illegalCommand) hf rfl
      refine ⟨u, ?_, hreports⟩
      rw [runWord, hdec]
      exact hu
    · rw [ruleOf_of_illFormed hwf]
      exact s.reports_setCode .illegalCommand
    · rw [ruleOf_of_lengthFails hlen]
      exact s.reports_setCode .lengthMismatch
    · rw [ruleOf_of_widthFails hwidth]
      exact s.reports_setCode .encodingOverflow
    · rw [(ruleOf_endsByDigits hwf hlen hwidth).1 hdigits]
      exact s.reportsFault_takeFault
    · obtain ⟨t, ht⟩ := (ruleOf_endsByDigits hwf hlen hwidth).2 hdigits
      rw [ht]
      exact (ruleOf_writesOnly i s t ht).reports_setCode .ok

/-- The width check belongs to `SENC` alone, which makes no digit check (R163, R164). -/
theorem not_digitsFail_of_widthFails {i : Instr} {s : State} (h : i.widthFails s) : ¬ i.digitsFail s := by
  obtain ⟨d, r, rfl, -⟩ := h
  exact not_digitsFail rfl rfl

/-- Settles O27: the failing digit check chooses ContractViolation, which takes the fault and writes no register. -/
theorem contractViolationTakesTheFault : Obligations.ContractViolationTakesTheFault := by
  intro i s hf hwf hlen hdigits
  have hviolation := (ruleOf_endsByDigits hwf hlen fun hwidth => not_digitsFail_of_widthFails hwidth hdigits).1 hdigits
  refine ⟨s.takeFault, ?_, s.reportsFault_takeFault, s.keepsBut_takeFault _⟩
  rw [exec_eq_conclude hf, hviolation, State.conclude]

/-- Settles O31: the width check chooses EncodingOverflow, a signal. -/
theorem sencOverflowSignals : Obligations.SencOverflowSignals := by
  intro s d r hf hwide
  exact exec_of_signal hf (by rw [ruleOf_of_widthFails ⟨d, r, rfl, hwide⟩, State.conclude])

/-- Settles O56: the length check, before any byte is read, chooses LengthMismatch, a signal. -/
theorem wrongLengthSignals : Obligations.WrongLengthSignals := by
  intro s i n hi hf hne
  have hwants : i.wantsLength = some n := by
    obtain ⟨rfl, rfl⟩ | ⟨rfl, rfl⟩ | ⟨rfl, rfl⟩ := hi
    all_goals rfl
  exact exec_of_signal hf (by rw [ruleOf_of_lengthFails ⟨n, hwants, hne⟩, State.conclude])

end Sys2Proof.Machine

/-! ### Two runs of one rule (spec 60_exceptions R161, R169)

A rule on two states that agree on what the command reads makes the same checks and the same register writes.
`State.SameWrites` relates the two states reached by the same writes, and `Ending.SameWrites` carries it through the checks
of a rule. Two states that differ in the code found alone agree on everything a command reads, so O24 needs no more than
O23 does. -/

namespace Sys2Proof.Machine

/-- The same register writes took `s` to `t` and `s'` to `t'`, those of `touched` among them: there `t` and `t'` hold the
same, and if `s` and `s'` differ in the code found alone, so do `t` and `t'`. -/
structure State.SameWrites (s s' t t' : State) (touched : Reg → Prop) : Prop where
  same : ∀ r, touched r → t.same t' r
  code : ∀ c, s' = s.setCode c → t' = t.setCode c

/-- Two endings are the same signal, the same fault, or `OK` after the same register writes. -/
inductive Ending.SameWrites (s s' : State) (touched : Reg → Prop) : Ending → Ending → Prop where
  | ok {t t' : State} (h : s.SameWrites s' t t' touched) : SameWrites s s' touched (.ok t) (.ok t')
  | failed {e : Ending} (he : ∀ t, e ≠ .ok t) : SameWrites s s' touched e e

section SameRegisterWrites

variable {s s' t t' : State} {touched : Reg → Prop}

theorem State.SameWrites.refl (s s' : State) : s.SameWrites s' s s' (fun _ => False) :=
  ⟨fun _ => False.elim, fun _ => id⟩

/-- A write joins the writes made before when it puts the same content into its registers, keeps to them, and does not
look at `STATUS`. -/
theorem State.SameWrites.write (h : s.SameWrites s' t t' touched) {f : State → State} {written : Reg → Prop}
    (hkeeps : ∀ u : State, u.WritesOnly (f u) written) (hsame : ∀ r, written r → (f t).same (f t') r)
    (hcode : ∀ (u : State) (c : Code), f (u.setCode c) = (f u).setCode c) :
    s.SameWrites s' (f t) (f t') (fun r => touched r ∨ written r) := by
  refine ⟨fun r hr => ?_, fun c hc => h.code c hc ▸ hcode t c⟩
  by_cases hw : written r
  · exact hsame r hw
  · have hstart := h.same r (hr.resolve_right hw)
    have hleft := (hkeeps t).keeps.1 r hw
    have hright := (hkeeps t').keeps.1 r hw
    cases r <;> exact hright.trans (hstart.trans hleft.symm)

/-- A write of one register, which reads back as what was written, whatever the state. -/
theorem State.SameWrites.writeReg (h : s.SameWrites s' t t' touched) {f : State → State} {x : Reg}
    (hkeeps : ∀ u : State, u.WritesOnly (f u) (· = x)) (hsame : (f t).same (f t') x)
    (hcode : ∀ (u : State) (c : Code), f (u.setCode c) = (f u).setCode c) :
    s.SameWrites s' (f t) (f t') (fun r => touched r ∨ r = x) :=
  h.write hkeeps (fun _ hr => hr ▸ hsame) hcode

theorem State.SameWrites.setInt (h : s.SameWrites s' t t' touched) (i : IReg) (x : Nat) :
    s.SameWrites s' (t.setInt i x) (t'.setInt i x) (fun r => touched r ∨ r = .int i) :=
  h.writeReg (fun u => (State.WritesOnly.refl u).setInt i x rfl)
    ((t'.getI_setI_same i _).trans (t.getI_setI_same i _).symm) fun _ _ => rfl

theorem State.SameWrites.setS (h : s.SameWrites s' t t' touched) (i : SReg) (v : ScalarReg) :
    s.SameWrites s' (t.setS i v) (t'.setS i v) (fun r => touched r ∨ r = .scalar i) :=
  h.writeReg (fun u => (State.WritesOnly.refl u).setS i v rfl)
    ((t'.getS_setS_same i _).trans (t.getS_setS_same i _).symm) fun _ _ => rfl

theorem State.SameWrites.setF (h : s.SameWrites s' t t' touched) (i : FReg) (v : FieldReg) :
    s.SameWrites s' (t.setF i v) (t'.setF i v) (fun r => touched r ∨ r = .field i) :=
  h.writeReg (fun u => (State.WritesOnly.refl u).setF i v rfl)
    ((t'.getF_setF_same i _).trans (t.getF_setF_same i _).symm) fun _ _ => rfl

theorem State.SameWrites.setQ (h : s.SameWrites s' t t' touched) (i : QReg) (v : QuadReg) :
    s.SameWrites s' (t.setQ i v) (t'.setQ i v) (fun r => touched r ∨ r = .quad i) :=
  h.writeReg (fun u => (State.WritesOnly.refl u).setQ i v rfl)
    ((t'.getQ_setQ_same i _).trans (t.getQ_setQ_same i _).symm) fun _ _ => rfl

theorem State.SameWrites.setBlen (h : s.SameWrites s' t t' touched) (n : BusWord) :
    s.SameWrites s' (t.setBlen n) (t'.setBlen n) (fun r => touched r ∨ r = .blen) :=
  h.writeReg (fun u => (State.WritesOnly.refl u).setBlen n rfl) rfl fun _ _ => rfl

theorem State.SameWrites.writeElems (h : s.SameWrites s' t t' touched) (a : Nat) (xs : List Nat)
    (hfit : a + 32 * xs.length ≤ bufBytes) :
    s.SameWrites s' (t.setBuf (t.buf.writeElems a xs)) (t'.setBuf (t'.buf.writeElems a xs))
      (fun r => touched r ∨ ∃ b, (a ≤ b ∧ b < a + 32 * xs.length) ∧ r = .byte b) := by
  refine h.write (f := fun u => u.setBuf (u.buf.writeElems a xs))
    (fun u => (State.WritesOnly.refl u).writeElems a xs hfit fun b hlow hhigh => ⟨b, ⟨hlow, hhigh⟩, rfl⟩) ?_ fun _ _ => rfl
  rintro _ ⟨b, hb, rfl⟩
  change (t'.buf.writeElems a xs).read b = (t.buf.writeElems a xs).read b
  rw [Memory.read_writeElems, Memory.read_writeElems, dif_pos hb, dif_pos hb]

theorem Ending.SameWrites.mono {e e' : Ending} {inside : Reg → Prop} (h : Ending.SameWrites s s' touched e e')
    (hsub : ∀ r, inside r → touched r) : Ending.SameWrites s s' inside e e' := by
  cases h with
  | ok h => exact .ok ⟨fun r hr => h.same r (hsub r hr), h.code⟩
  | failed he => exact .failed he

/-- A check made on the same content signals in both runs or in neither. -/
theorem Ending.SameWrites.ite {c : Prop} [Decidable c] {e e₁ e₂ : Ending} (he : ∀ t, e ≠ .ok t)
    (h : Ending.SameWrites s s' touched e₁ e₂) :
    Ending.SameWrites s s' touched (if c then e else e₁) (if c then e else e₂) := by
  split
  · exact .failed he
  · exact h

/-- A digit check made on the same content fails in both runs, or hands the same value on in both. -/
theorem Ending.SameWrites.check {α : Type} {o o' : Option α} {f f' : α → Option State} (ho : o' = o)
    (h : ∀ x, Ending.SameWrites s s' touched (.ofChecked (f x)) (.ofChecked (f' x))) :
    Ending.SameWrites s s' touched (.ofChecked (o >>= f)) (.ofChecked (o' >>= f')) := by
  subst ho
  cases o' with
  | none => exact .failed nofun
  | some x => exact h x

/-- A marshal of the same registers writes the same elements and the same length (R132, R134, R136). -/
theorem Ending.SameWrites.marshal (hparams : s.params = s'.params) {rs : List FieldReg} {n : Nat} (hn : rs.length = n)
    (len : BusWord) (hfit : 32 * n ≤ bufBytes) :
    Ending.SameWrites s s' (fun r => (∃ b, b < 32 * n ∧ r = .byte b) ∨ r = .blen) (s.marshal rs len) (s'.marshal rs len) := by
  subst hn
  by_cases hr : ∀ r ∈ rs, ranged (fieldDigits r)
  · rw [(s.marshal_eq rs len).1 hr, (s'.marshal_eq rs len).1 hr, ← hparams]
    have helems := (State.SameWrites.refl s s').writeElems 0 (rs.map fun r => valueOf s.params (fieldDigits r))
      (by simpa using hfit)
    refine Ending.SameWrites.mono (.ok (helems.setBlen len)) fun r hr => ?_
    simpa using hr
  · rw [(s.marshal_eq rs len).2 hr, (s'.marshal_eq rs len).2 hr]
    exact .failed nofun

end SameRegisterWrites

section SameReads

variable {s s' : State} (hparams : s.params = s'.params)
include hparams

theorem State.fencElem_congr {k : Nat} (h : ∀ a, inElem k a = true → s.same s' (.byte a)) :
    s'.fencElem k = s.fencElem k := by
  rw [State.fencElem, State.fencElem, ← hparams, State.readElem, State.readElem,
    Memory.readBytes_congr s'.buf s.buf _ _ fun j hj => h _ (decide_eq_true (by simp only [elemBytes] at hj ⊢; omega))]

theorem State.fencElemPair_congr {j : Nat} (h : ∀ a, a < 64 * j + 64 → s.same s' (.byte a)) :
    s'.fencElemPair j = s.fencElemPair j := by
  have helem (k : Nat) (hk : k < 2 * j + 2) : s'.readElem k = s.readElem k :=
    Memory.readBytes_congr _ _ _ _ fun n hn => h _ (by simp only [elemBytes] at hn ⊢; omega)
  rw [State.fencElemPair, State.fencElemPair, ← hparams, helem _ (by omega), helem _ (by omega)]

/-- On two states with the same constants that agree on what the command reads, its rule ends the same way, after the same
writes (R161). -/
theorem ruleOf_sameWrites {i : Instr} (hreads : ∀ r, i.reads r = true → s.same s' r) :
    Ending.SameWrites s s' (fun r => i.writes r = true) (ruleOf i s) (ruleOf i s') := by
  have start := State.SameWrites.refl s s'
  cases i with
  | nop => exact .mono (.ok start) nofun
  | senc d r =>
    have hI : s'.getI r = s.getI r := hreads (.int r) (decide_eq_true rfl)
    rw [ruleOf, sencRule, sencRule, hI]
    refine .mono (.ite nofun (.ok (start.setS d _))) fun
      | .scalar x, hx => .inr (congrArg _ (of_decide_eq_true hx))
  | sdec d r =>
    have hS : s'.getS r = s.getS r := hreads (.scalar r) (decide_eq_true rfl)
    rw [ruleOf, sdecRule, sdecRule, hS]
    refine .mono (.ok (start.setInt d _)) fun
      | .int x, hx => .inr (congrArg _ (of_decide_eq_true hx))
  | fenc d r =>
    have hI : s'.getI r = s.getI r := hreads (.int r) (decide_eq_true rfl)
    refine .mono (.check (by rw [hI, hparams]) fun D => .ok (start.setF d D)) fun
      | .field x, hx => .inr (congrArg _ (of_decide_eq_true hx))
  | fdec d r =>
    have hF : s'.getF r = s.getF r := hreads (.field r) (decide_eq_true rfl)
    refine .mono (.check (by rw [hF, hparams]) fun x => .ok (start.setInt d x)) fun
      | .int x, hx => .inr (congrArg _ (of_decide_eq_true hx))
  | qilv d a b =>
    have ha : s'.getF a = s.getF a := hreads (.field a) (decide_eq_true (.inl rfl))
    have hb : s'.getF b = s.getF b := hreads (.field b) (decide_eq_true (.inr rfl))
    rw [ruleOf, qilvRule, qilvRule, ha, hb]
    refine .mono (.ok (start.setQ d _)) fun
      | .quad x, hx => .inr (congrArg _ (of_decide_eq_true hx))
  | qdil a b r =>
    have hQ : s'.getQ r = s.getQ r := hreads (.quad r) (decide_eq_true rfl)
    rw [ruleOf, qdilRule, qdilRule, hQ]
    refine .mono (.ite nofun (.ok ((start.setF a _).setF b _))) fun
      | .field x, hx => (of_decide_eq_true hx).imp (fun h => .inr (congrArg _ h)) (congrArg _)
  | qenc d a b =>
    have ha : s'.getI a = s.getI a := hreads (.int a) (decide_eq_true (.inl rfl))
    have hb : s'.getI b = s.getI b := hreads (.int b) (decide_eq_true (.inr rfl))
    refine .mono (.check (by rw [ha, hb, hparams]) fun T => .ok (start.setQ d T)) fun
      | .quad x, hx => .inr (congrArg _ (of_decide_eq_true hx))
  | qdec a b r =>
    have hQ : s'.getQ r = s.getQ r := hreads (.quad r) (decide_eq_true rfl)
    rw [ruleOf, qdecRule, qdecRule, hQ, ← hparams]
    refine .mono (.ite nofun (.check rfl fun xa => .check rfl fun xb => .ok ((start.setInt a xa).setInt b xb))) fun
      | .int x, hx => (of_decide_eq_true hx).imp (fun h => .inr (congrArg _ h)) (congrArg _)
  | ftob r k =>
    have hF : s'.getF r = s.getF r := hreads (.field r) (decide_eq_true rfl)
    have hfit : 32 * k.val + 32 * 1 ≤ bufBytes := by
      have := k.isLt
      simp only [bufBytes]
      omega
    exact .check (by rw [hF, hparams]) fun x => .mono (.ok (start.writeElems (32 * k.val) [x] hfit)) fun
      | .byte b, hb => .inr ⟨b, of_decide_eq_true hb, rfl⟩
  | btof d k =>
    refine .mono (.check (State.fencElem_congr hparams fun a => hreads (.byte a)) fun D => .ok (start.setF d D)) fun
      | .field x, hx => .inr (congrArg _ (of_decide_eq_true hx))
  | mg1 =>
    have hF (x : FReg) (hx : x.val < 2) : s'.getF x = s.getF x := hreads (.field x) (decide_eq_true hx)
    rw [ruleOf, mg1Rule, mg1Rule, hF 0 (by decide), hF 1 (by decide)]
    refine .mono (.marshal (n := 2) hparams rfl _ (by decide)) fun
      | .byte b, hb => .inl ⟨b, of_decide_eq_true hb, rfl⟩
      | .blen, _ => .inr rfl
  | mg2 =>
    have hQ (x : QReg) (hx : x.val < 2) : s'.getQ x = s.getQ x := hreads (.quad x) (decide_eq_true hx)
    rw [ruleOf, mg2Rule, mg2Rule, hQ 0 (by decide), hQ 1 (by decide)]
    refine .mono (.marshal (n := 4) hparams rfl _ (by decide)) fun
      | .byte b, hb => .inl ⟨b, of_decide_eq_true hb, rfl⟩
      | .blen, _ => .inr rfl
  | mgt =>
    have hQ (x : QReg) : s'.getQ x = s.getQ x := hreads (.quad x) rfl
    rw [ruleOf, mgtRule, mgtRule, hQ, hQ, hQ, hQ, hQ, hQ]
    refine .mono (.marshal (n := 12) hparams rfl _ (by decide)) fun
      | .byte b, hb => .inl ⟨b, of_decide_eq_true hb, rfl⟩
      | .blen, _ => .inr rfl
  | ug1 =>
    have hlen : s'.blen = s.blen := hreads .blen rfl
    have helem {k : Nat} (hk : k < 2) : s'.fencElem k = s.fencElem k := State.fencElem_congr hparams fun a ha =>
      hreads (.byte a) (decide_eq_true (by have := of_decide_eq_true ha; omega))
    rw [ruleOf, ug1Rule, ug1Rule, hlen]
    refine .mono (.ite nofun (.check (helem (by decide)) fun x => .check (helem (by decide)) fun y =>
      .ok ((((start.setF 0 x).setF 1 y).setF 2 oneField).setF 3 zeroField))) fun
      | .field x, _ => ?_
    fin_cases x <;> simp
  | ug2 =>
    have hlen : s'.blen = s.blen := hreads .blen rfl
    have hpair {j : Nat} (hj : j < 2) : s'.fencElemPair j = s.fencElemPair j :=
      State.fencElemPair_congr hparams fun a ha => hreads (.byte a) (decide_eq_true (by omega))
    rw [ruleOf, ug2Rule, ug2Rule, hlen]
    refine .mono (.ite nofun (.check (hpair (by decide)) fun x => .check (hpair (by decide)) fun y =>
      .ok ((((start.setQ 0 x).setQ 1 y).setQ 2 oneQuad).setQ 3 zeroQuad))) fun
      | .quad x, hx => ?_
    fin_cases x <;> simp_all [Instr.writes]
  | ugt =>
    have hlen : s'.blen = s.blen := hreads .blen rfl
    have hpair {j : Nat} (hj : j < 6) : s'.fencElemPair j = s.fencElemPair j :=
      State.fencElemPair_congr hparams fun a ha => hreads (.byte a) (decide_eq_true (by omega))
    rw [ruleOf, ugtRule, ugtRule, hlen]
    refine .mono (.ite nofun (.check (hpair (by decide)) fun q0 => .check (hpair (by decide)) fun q1 =>
      .check (hpair (by decide)) fun q2 => .check (hpair (by decide)) fun q3 => .check (hpair (by decide)) fun q4 =>
      .check (hpair (by decide)) fun q5 =>
      .ok ((((((start.setQ 0 q0).setQ 1 q1).setQ 2 q2).setQ 3 q3).setQ 4 q4).setQ 5 q5))) fun
      | .quad x, _ => ?_
    fin_cases x <;> simp

end SameReads

/-- The outcome an ending gives `STATUS.CODE` (R160). -/
def Ending.outcome : Ending → Code
  | .ok _ => .ok
  | .lengthMismatch => .lengthMismatch
  | .encodingOverflow => .encodingOverflow
  | .illegalCommand => .illegalCommand
  | .contractViolation => .contractViolation

theorem State.code_conclude (s : State) (e : Ending) : (s.conclude e).code = e.outcome.num := by
  cases e with
  | ok t => exact t.code_setCode .ok
  | contractViolation => exact s.reportsFault_takeFault.1
  | lengthMismatch | encodingOverflow | illegalCommand => exact s.code_setCode _

/-- A command enters the fault state exactly with ContractViolation (R164, R168). -/
theorem State.faulted_conclude {s : State} {touched : Reg → Prop} {e : Ending} (hf : s.faulted = false)
    (he : Ending.WritesOnly s touched e) : (s.conclude e).faulted = decide (e.outcome = .contractViolation) := by
  cases e with
  | ok t => exact ((he t rfl).reports_setCode .ok).not_faulted hf
  | contractViolation => exact statusFault_setFault _
  | lengthMismatch | encodingOverflow | illegalCommand => exact (s.faulted_setCode _).trans hf

theorem Ending.SameWrites.outcome_eq {s s' : State} {touched : Reg → Prop} {e e' : Ending}
    (h : Ending.SameWrites s s' touched e e') : e.outcome = e'.outcome := by
  cases h <;> rfl

/-- Where a conclusion reports `OK` its rule ended `OK`, and so did the rule in the other run, after the same writes
(R161, R167). -/
theorem Ending.SameWrites.same_conclude {s s' : State} {touched : Reg → Prop} {e e' : Ending}
    (h : Ending.SameWrites s s' touched e e') (hcode : (s.conclude e).code = Code.ok.num) (r : Reg) (hr : touched r) :
    (s.conclude e).same (s'.conclude e') r := by
  cases h with
  | ok h =>
    have hsame := h.same r hr
    cases r <;> exact hsame
  | @failed e he =>
    rw [State.code_conclude] at hcode
    cases e with
    | ok t => exact absurd rfl (he t)
    | lengthMismatch | encodingOverflow | illegalCommand | contractViolation => exact absurd hcode (by decide)

/-- Settles O23: in the fault state neither run does anything; outside it both conclude their rules, which end the same way
after the same writes. -/
theorem outcomeDependsOnlyOnWhatIsRead : Obligations.OutcomeDependsOnlyOnWhatIsRead := by
  intro i s s' t t' hparams hfaulted hreads h h'
  constructor
  · intro hf
    rw [exec_of_faulted hf] at h
    rw [exec_of_faulted (hfaulted ▸ hf)] at h'
    cases h
    cases h'
    exact ⟨rfl, rfl⟩
  · intro hf
    have hf' : s'.faulted = false := hfaulted ▸ hf
    rw [exec_eq_conclude hf] at h
    rw [exec_eq_conclude hf'] at h'
    cases h
    cases h'
    have hrule := ruleOf_sameWrites hparams hreads
    refine ⟨?_, ?_, hrule.same_conclude⟩
    · rw [State.code_conclude, State.code_conclude, hrule.outcome_eq]
    · rw [State.faulted_conclude hf (ruleOf_writesOnly i s), State.faulted_conclude hf' (ruleOf_writesOnly i s'),
        hrule.outcome_eq]

/-! ### The code found (spec 60_exceptions R169) -/

theorem State.setCode_setCode (s : State) (c c' : Code) : (s.setCode c).setCode c' = s.setCode c' := by
  rw [State.setCode, State.setCode_status, statusSetCode_setCode]
  rfl

/-- A conclusion overwrites the code found, whatever it was (R169). -/
theorem Ending.SameWrites.conclude_setCode {s : State} {c : Code} {touched : Reg → Prop} {e e' : Ending}
    (h : Ending.SameWrites s (s.setCode c) touched e e') : (s.setCode c).conclude e' = s.conclude e := by
  cases h with
  | ok h => rw [State.conclude, State.conclude, h.code c rfl, State.setCode_setCode]
  | @failed e he =>
    cases e with
    | ok t => exact absurd rfl (he t)
    | contractViolation => rw [State.conclude, State.conclude, State.takeFault, State.takeFault, State.setCode_setCode]
    | lengthMismatch | encodingOverflow | illegalCommand => exact s.setCode_setCode c _

/-- Outside the fault state, two rules that end the same way after the same writes are the same step from either code. -/
theorem State.command_setCode {s : State} {c : Code} {rule : State → Ending} {touched : Reg → Prop}
    (hf : s.faulted = false) (h : Ending.SameWrites s (s.setCode c) touched (rule s) (rule (s.setCode c))) :
    (s.setCode c).command rule = s.command rule := by
  have hf' := (s.faulted_setCode c).trans hf
  rw [(s.command_eq rule).2 hf, ((s.setCode c).command_eq rule).2 hf', h.conclude_setCode]

/-- Settles O24: the code is no register a command reads, and an illegal word reads nothing. -/
theorem earlierOutcomeIsForgotten : Obligations.EarlierOutcomeIsForgotten := by
  intro i w s c hf
  have hexec (i : Instr) : exec i (s.setCode c) = exec i s := by
    rw [exec_eq, exec_eq]
    exact State.command_setCode hf (ruleOf_sameWrites (s.setCode_params c).symm fun r _ => by cases r <;> rfl)
  refine ⟨hexec i, ?_⟩
  rw [runWord, runWord]
  cases decode w with
  | ok i => exact hexec i
  | error e => exact State.command_setCode (touched := fun _ => False) hf (.failed nofun)

end Sys2Proof.Machine
